-- ==== Sys2Proof/Word.lean ====
section
/-! DEFINITION. The block's words: a message, a duration, a symbol (00_scope.md R12, 30_encoding.md R70, R71, R75).
The widths DUR_W = 16 and MSG_W = 16 (R9, D5) are fixed in these types. -/

namespace Sys2Proof

/-- `u16`, an unsigned 16-bit value; bit 0 is the least significant (R12). -/
abbrev U16 := BitVec 16

/-- An 8-bit value: one half of a code, or a channel identifier (R75, R192). -/
abbrev Byte := BitVec 8

/-- One duration, `DUR_W = 16` bits unsigned: in DU on ENC's side, in raw ticks on DEC's (R10, R71). -/
abbrev Duration := BitVec 16

/-- Format `SYM`, a symbol: the carrier is on for `high`, then off for `low` (R54, R71). -/
structure OokSymbol where
  high : Duration
  low  : Duration
deriving DecidableEq, Repr

end Sys2Proof
end

