-- ==== Sys2Proof/Config.lean ====
section
/-! DEFINITION. The parameters of the block (00_scope.md R9): every row of R9's table is a field with the value shown
there as its default, with the optional parameters of 93_implementation_defined.md U6 and U7. The parameters are
read-only after startup (10_state.md R35), so they are no state. The values the machine uses are
`Sys2Proof.Machine.config` (Machine/Params.lean). -/

namespace Sys2Proof

/-- What a push to a full channel does: the source allows either (R9 `CH_POLICY`, R180, U5). -/
inductive ChPolicy where
  /-- the arriving message is lost, the source's "reject-and-log" (the spec's choice, D16) -/
  | dropNewest
  /-- the arriving message enters and the oldest is lost (R183, the policy not taken) -/
  | dropOldest
deriving DecidableEq, Repr

/-- The parameters of R9, in its order. -/
structure Config where
  /-- `MSG_W`, the width of a message; the type `U16` fixes it. -/
  msgW : Nat := 16
  /-- `REPEATS`, payload repetitions per frame; the values of `enc.step` fix it (R21). -/
  repeats : Nat := 4
  /-- `DELAYS`, delay symbols per frame; the values of `enc.step` fix it (R21). -/
  delays : Nat := 3
  /-- `FRAME_SYMBOLS`, `1 + 4×16 + 3`. -/
  frameSymbols : Nat := 68
  /-- `ZERO_HIGH`, in DU. -/
  zeroHigh : Duration := 263
  /-- `ZERO_LOW`, in DU. -/
  zeroLow : Duration := 580
  /-- `ONE_HIGH`, in DU. -/
  oneHigh : Duration := 685
  /-- `ONE_LOW`, in DU. -/
  oneLow : Duration := 158
  /-- `HEADER_HIGH`, in DU. UNVERIFIED: approximate in the source (D4, U8). -/
  headerHigh : Duration := 2730
  /-- `HEADER_LOW`, in DU. UNVERIFIED: approximate in the source (D4, U8). -/
  headerLow : Duration := 2080
  /-- `DELAY_HIGH`, in DU. -/
  delayHigh : Duration := 1000
  /-- `DELAY_LOW`, in DU. -/
  delayLow : Duration := 1000
  /-- `MARGIN`, in DU, on the doubled raw value. -/
  margin : Nat := 200
  /-- `TICK_FACTOR`: a raw count `d` is compared as `2d`. -/
  tickFactor : Nat := 2
  /-- `DIAG_THRESHOLD`: a diagnostic needs more than this many bits. -/
  diagThreshold : Nat := 2
  /-- `CH_CAP`, in messages (D16). -/
  chCap : Nat := 4
  /-- `CH_POLICY` (D16, U5). -/
  chPolicy : ChPolicy := .dropNewest
  /-- `PAYLOAD_MSB_FIRST`: bit 15 of the message is sent first (D3, U9). -/
  payloadMsbFirst : Bool := true
  /-- `DUR_W`, the width of a duration; the type `Duration` fixes it (D5). -/
  durW : Nat := 16
  /-- `CAP_W`, the width of the capacity operand; `none`: unbounded, any natural (D12). -/
  capW : Option Nat := none
  /-- `DU_PHYS`, nominal microseconds in a DU; no rule reads it (D1). -/
  duPhys : Nat := 1
  /-- `PM_LOW_BYTE`. -/
  pmLowByte : Byte := 0xAA
  /-- `PM_ON_BIT`. -/
  pmOnBit : Nat := 15
  /-- `PM_SEL_HI`. -/
  pmSelHi : Nat := 11
  /-- `PM_SEL_LO`. -/
  pmSelLo : Nat := 10
  /-- `PM_FIXED_MASK`, on the high byte (D20). -/
  pmFixedMask : Byte := 0x73
  /-- `PM_FIXED_VALUE`, on the high byte (D20). -/
  pmFixedValue : Byte := 0x00
  /-- `PM_CHANNELS`: identifier and selector. 'e' is held as 0x65 (UNVERIFIED: general knowledge of the spec, G4). -/
  pmChannels : List (Byte × BitVec 2) := [(0x65, 3)]
  /-- `PM_CHANNEL_2`, the second observed channel, OPEN in the spec: absent by default (D20, U13). -/
  pmChannel2 : Option (Byte × BitVec 2) := none
  /-- `LATCH_PER_BATCH`: if true, DEC.BEGIN clears `dec.last_valid`; not this spec's reading (U6). -/
  latchPerBatch : Bool := false
  /-- `DEC_LAST_RESET`: the latch after device reset; `none`: empty, this spec's reading (D13, U7). -/
  decLastReset : Option U16 := none
deriving DecidableEq, Repr

/-- FREE VALUE: what a register holds after a device reset where the spec leaves it unspecified (R39, U10: "any
value"). It has no body, so no proof can rest on what it is; the state's counter `draws` is its argument
(notes/assumptions/10.md). -/
opaque Config.unspecified : Nat → U16

end Sys2Proof
end

