-- ==== Sys2Proof/Machine/Params.lean ====
section
/-! DEFINITION. The parameter values this machine has, and the four symbols and two PM lookups read off them. -/

namespace Sys2Proof

/-- The logic-zero template and symbol (R72, R100). -/
def Config.zero (c : Config) : OokSymbol := ⟨c.zeroHigh, c.zeroLow⟩

/-- The logic-one template and symbol (R72, R100). -/
def Config.one (c : Config) : OokSymbol := ⟨c.oneHigh, c.oneLow⟩

/-- The header symbol (R72, R100). -/
def Config.header (c : Config) : OokSymbol := ⟨c.headerHigh, c.headerLow⟩

/-- The inter-repetition delay symbol (R72, R100). -/
def Config.delay (c : Config) : OokSymbol := ⟨c.delayHigh, c.delayLow⟩

/-- The channel table with the optional second entry (R192). -/
def Config.pmTable (c : Config) : List (Byte × BitVec 2) := c.pmChannels ++ c.pmChannel2.toList

/-- `selector(channel)`, `none` if the identifier is absent (R192). -/
def Config.selector (c : Config) (channel : Byte) : Option (BitVec 2) :=
  (c.pmTable.find? (fun row => row.1 == channel)).map Prod.snd

/-- `channel_of(s)`, `none` for a selector value with no entry (R192). -/
def Config.channelOf (c : Config) (sel : BitVec 2) : Option Byte :=
  (c.pmTable.find? (fun row => row.2 == sel)).map Prod.fst

end Sys2Proof

namespace Sys2Proof.Machine

/-- The machine's parameters: every default of R9. UNVERIFIED where R9 says "decided": the spec's own decisions
(notes/assumptions/19.md to 24.md, 29.md, 30.md). -/
def config : Config := {}

end Sys2Proof.Machine
end

