-- ==== Sys2Proof/Syntax.lean ====
section
/-! DEFINITION. The operations: one constructor per row of spec/opcode_table.json, its operands as the row's ports give
them (30_encoding.md R70, R80, R72). A request is format `REQ`: a code word, with "the operation's operands on ports of
their own" (R70). -/

namespace Sys2Proof

/-- An operation with its operands (R80), or a symbol word of the table (R72). -/
inductive Instr where
  /-- `ENC.ENCODE capacity, message` (R125) -/
  | encEncode (capacity : Nat) (message : U16)
  /-- `ENC.RESET` (R130) -/
  | encReset
  /-- `DEC.DECODE batch`, symbols in raw ticks (R151) -/
  | decDecode (batch : List OokSymbol)
  /-- `DEC.BEGIN` (R152) -/
  | decBegin
  /-- `DEC.SYM sym`, in raw ticks (R153) -/
  | decSym (sym : OokSymbol)
  /-- `CH.POP` (R182) -/
  | chPop
  /-- `CMP.WIN d, t`: `d` in raw ticks, `t` in DU, any natural (R101, R102) -/
  | cmpWin (d : Duration) (t : Nat)
  /-- `CMP.CLASSIFY sym, last` (R106) -/
  | cmpClassify (sym : OokSymbol) (last : Bool)
  /-- `PM.ENC channel, on` (R191) -/
  | pmEnc (channel : Byte) (on : Bool)
  /-- `PM.DEC message` (R193) -/
  | pmDec (message : U16)
  /-- the symbol word `ZERO` (R72) -/
  | zero
  /-- the symbol word `ONE` (R72) -/
  | one
  /-- the symbol word `HEADER` (R72) -/
  | header
  /-- the symbol word `DELAY` (R72) -/
  | delay
deriving DecidableEq, Repr

/-- The row's mnemonic in spec/opcode_table.json. -/
def Instr.mnemonic : Instr → String
  | .encEncode _ _   => "ENC.ENCODE"
  | .encReset        => "ENC.RESET"
  | .decDecode _     => "DEC.DECODE"
  | .decBegin        => "DEC.BEGIN"
  | .decSym _        => "DEC.SYM"
  | .chPop           => "CH.POP"
  | .cmpWin _ _      => "CMP.WIN"
  | .cmpClassify _ _ => "CMP.CLASSIFY"
  | .pmEnc _ _       => "PM.ENC"
  | .pmDec _         => "PM.DEC"
  | .zero            => "ZERO"
  | .one             => "ONE"
  | .header          => "HEADER"
  | .delay           => "DELAY"

/-- The operand ports of a request (R70; the table's `source_fields`). A port an operation does not name is not read.
Symbol ports carry `SYM` words (R71). -/
structure Ports where
  capacity : Nat
  message  : U16
  batch    : List (BitVec 32)
  sym      : BitVec 32
  d        : Duration
  t        : Nat
  last     : BitVec 1
  channel  : Byte
  on       : BitVec 1
deriving DecidableEq, Repr

/-- Every port at zero. -/
def Ports.zero : Ports :=
  { capacity := 0, message := 0, batch := [], sym := 0, d := 0, t := 0, last := 0, channel := 0, on := 0 }

/-- A request as the environment presents it. `code` holds a `REQ` select code in bits 3 to 0 with zeros above, or a
32-bit `SYM` word. DESIGN CHOICE (notes/assumptions/1.md): one 32-bit code port for both formats. -/
structure Request where
  code  : BitVec 32
  ports : Ports
deriving DecidableEq, Repr

end Sys2Proof
end

