-- ==== Sys2Proof/Machine/State.lean ====
section
/-! DEFINITION. The machine's state as plain data, its results and events, the reasons it stops, and the state after
reset (10_state.md R20 to R39, 20_memory.md R50, 60_exceptions.md R202 to R208, 70_reset_and_hazards.md R230). -/

namespace Sys2Proof.Machine

/-- The values of `enc.step`: each names the sub-step last completed in the frame in flight (R21). -/
inductive EncStep where
  | reset | headerDone | payload0Done | delay0Done | payload1Done | delay1Done | payload2Done | delay2Done | payload3Done
deriving DecidableEq, Repr

/-- ENC's state, the source's "Encoder State" (R20 to R24). -/
structure EncState where
  /-- `enc.step` (R21) -/
  step : EncStep
  /-- `enc.bit`, 0 to 15: payload symbols of the current repetition already emitted (R23) -/
  bit  : Fin 16
  /-- `enc.msg`, the message in flight (R24) -/
  msg  : U16
deriving DecidableEq, Repr

/-- DEC's state, the "Decoder Accumulator" and the "Last Decoded Message" (R29 to R31). -/
structure DecState where
  /-- `dec.cnt`, 0 to 16: bits accumulated in the run in progress (R29) -/
  cnt       : Fin 17
  /-- `dec.acc`, the partial message (R29, R30) -/
  acc       : U16
  /-- `dec.last`, the most recent completed message; not read while `lastValid` is false (R31) -/
  last      : U16
  /-- `dec.last_valid` (R31) -/
  lastValid : Bool
deriving DecidableEq, Repr

/-- TXBUF, the destination symbol buffer at ENC's output (R50). The collaborator owns it; ENC only appends. -/
structure TxBuf where
  /-- the real free space in symbols, `none` where no bound is known to the model (R242, U4; notes/assumptions/6.md) -/
  free : Option Nat
  /-- every symbol appended, in order: "ENC's observable output" (R50) -/
  syms : List OokSymbol
deriving DecidableEq, Repr

/-- ENC.ENCODE's completion status (R38, R126). -/
inductive Status where
  | bufferFull | frameComplete
deriving DecidableEq, Repr

/-- CMP.CLASSIFY's result (R106). -/
inductive Classification where
  | zero | one | invalid
deriving DecidableEq, Repr

/-- `ChPush`'s result (R181). -/
inductive PushResult where
  | dropped | accepted
deriving DecidableEq, Repr

/-- PM.DEC's result: a pair, or the distinguishable error value (R193, R207). -/
inductive PayloadResult where
  | invalidCode
  | pair (channel : Byte) (on : Bool)
deriving DecidableEq, Repr

/-- An event record, format `EVT` (R79, R203 to R205). -/
inductive Event where
  /-- a new message entered the channel (R203) -/
  | emit (m : U16)
  /-- a new message met a full channel (R204) -/
  | overflow (m : U16)
  /-- a run of `n` bits was abandoned (R205) -/
  | diag (n : Nat)
deriving DecidableEq, Repr

/-- The result value of an operation (the results column of R80). -/
inductive Result where
  /-- no result (ENC.RESET, the DEC operations, a symbol word), or no operation yet -/
  | none
  /-- ENC.ENCODE: `written`, `status`, `symbols` (R120, R125) -/
  | encoded (written : Nat) (status : Status) (symbols : List OokSymbol)
  /-- CH.POP: a message or `none` (R182) -/
  | popped (m : Option U16)
  /-- CMP.WIN: one bit (R102) -/
  | window (b : Bool)
  /-- CMP.CLASSIFY (R106) -/
  | classified (k : Classification)
  /-- PM.ENC: a code (R191) -/
  | code (m : U16)
  /-- PM.DEC (R193) -/
  | payload (r : PayloadResult)
deriving DecidableEq, Repr

/-- What the environment can put before the block (R215; INVENTORY.md, Host interface). -/
inductive Input where
  /-- a request for an operation (R70) -/
  | request (r : Request)
  /-- the emission collaborator's real free space is now this (R50, U4) -/
  | txSpace (free : Option Nat)
  /-- device reset: power-on or device-wide (R230) -/
  | deviceReset
  /-- startup could not allocate the block's resources: the block stays in reset (R208) -/
  | constructionFailure
  /-- startup has its resources and the collaborators of R232 are in place: the block leaves reset (R208) -/
  | constructionSuccess
deriving DecidableEq, Repr

/-- The machine's faults. -/
inductive Fault where
  /-- X8: "encoder/decoder cannot allocate required resources at startup: fatal" (R208). Raised by the environment
  input of that name while the block is still in reset, "before any operation runs" (R200), and by no operation. Safe:
  nothing runs after it, and no rule applies. -/
  | constructionFailure
deriving DecidableEq, Repr

/-- The reasons a request has no meaning. -/
inductive Refusal where
  /-- An arm of `exec` without a meaning yet; no arm of this model answers it. Safe: nothing is claimed of the
  instruction. -/
  | notModelled (mnemonic : String)
  /-- The decoder rejects a select code that names no operation (R82, U11). Safe: the spec asks for the refusal. -/
  | unusedSelectCode (op : BitVec 4)
  /-- The decoder rejects a word that is no row of the table (R72, R82). Safe: such a request names no operation. -/
  | unknownWord (w : BitVec 32)
  /-- U1: ENC.ENCODE with another message while a frame is in flight (R132, R220). Safe: the spec asks for the
  refusal. -/
  | messageChangedMidFrame
  /-- U2: PM.ENC with an identifier not in the table (R191, R220). Safe: the spec asks for the refusal. -/
  | unsupportedChannel (channel : Byte)
  /-- U4: an append beyond TXBUF's real free space, by ENC.ENCODE or a symbol word (R242). Safe: the spec asks for the
  run to be refused. -/
  | txbufOverrun
  /-- U11: ENC.ENCODE begins at `Payload3Done`, which is "entered and left inside one ENC.ENCODE" (R25). Safe: no run
  from reset reaches it. -/
  | payload3DoneAtStart
  /-- A request before the block is out of reset, where "no rule of this spec applies" (R208). Safe: no run of a block
  out of reset reaches it. -/
  | notOutOfReset
  /-- A report on construction once the block is out of reset: it is "a condition of the boot sequence, not of any
  operation" (R208), so such a schedule has no move. Safe: nothing is claimed of it. -/
  | constructionIsOver
  /-- DEC.SYM begins with `dec.cnt = 16`, a value it takes "only inside a DEC.SYM" (R29), where the rule's bit index
  `15 - 16` names no bit. Safe: no run from reset reaches it. -/
  | cntSixteenAtStart
deriving DecidableEq, Repr

/-- The whole machine. -/
structure State where
  /-- ENC's registers -/
  enc     : EncState
  /-- DEC's registers -/
  dec     : DecState
  /-- `ch.q`, oldest first (R34) -/
  ch      : List U16
  /-- TXBUF (R50) -/
  tx      : TxBuf
  /-- the block is out of reset: construction succeeded (R208, R133, X8 of R202; notes/assumptions/26.md) -/
  outOfReset : Bool
  /-- the last operation's result: an output (R16, R37) -/
  result  : Result
  /-- the last operation's event list: an output (R16, R206) -/
  events  : List Event
  /-- the model's own event history (R206) -/
  log     : List Event
  /-- the model's own counter of free values drawn (notes/assumptions/10.md) -/
  draws   : Nat
  /-- the model's own queue of inputs not taken yet, oldest first (notes/assumptions/3.md) -/
  pending : List Input
deriving DecidableEq, Repr

/-- ENC after device reset (R39). DESIGN CHOICE: `enc.msg`, unspecified there, is 0 (notes/assumptions/8.md). -/
def EncState.initial : EncState := { step := .reset, bit := 0, msg := 0 }

/-- DEC after device reset (R39). DESIGN CHOICE: `dec.last`, unspecified there, is 0 (notes/assumptions/9.md). -/
def DecState.initial : DecState := { cnt := 0, acc := 0, last := 0, lastValid := false }

/-- The machine right after reset (R39, R230): idle, no request before it, out of reset by the "launch premise" that
construction succeeded (R208). DESIGN CHOICE for the fields that are no
state of the block (notes/assumptions/7.md, 10.md, 12.md). -/
def State.reset : State :=
  { enc := EncState.initial, dec := DecState.initial, ch := [], tx := { free := none, syms := [] },
    outOfReset := true, result := .none, events := [], log := [], draws := 0, pending := [] }

/-- The machine still held in reset, before startup has reported on construction (R208, R232). -/
def State.heldInReset : State := { State.reset with outOfReset := false }

end Sys2Proof.Machine
end

