-- ==== Sys2Proof/Machine/Ops.lean ====
section
/-! DEFINITION. The store primitives (00_scope.md R15), the hand-over of a result and its events (R16), caller errors
(R220), and device reset (70_reset_and_hazards.md R230). There is no trap entry and no trap return to write: "No
operation of the block transfers control anywhere, saves state for a handler, or changes a mode" (R200, R212). -/

namespace Sys2Proof.Machine

/-- Hand over an operation's result and event list (R16), and add the events to the history (R206). Every operation
ends here. -/
def State.finish (s : State) (r : Result) (ev : List Event) : State :=
  { s with result := r, events := ev, log := s.log ++ ev }

/-- `raise CallerError(kind)`: the call has no meaning and the run is refused (R16, R220). -/
def callerError (kind : Refusal) : Host.Outcome State Fault Refusal := .refused kind

/-- `TxAppend(sym)`: one whole symbol after those already appended (R15, R50, R56); `none` where TXBUF's real space is
used up, since it "admits an append only within its real space" (U4). -/
def txAppend (t : TxBuf) (sym : OokSymbol) : Option TxBuf :=
  match t.free with
  | none         => some { t with syms := t.syms ++ [sym] }
  | some 0       => none
  | some (n + 1) => some { free := some n, syms := t.syms ++ [sym] }

/-- TXBUF has room for `n` symbols as far as the model knows: what hazard H3 asks of a truthful capacity (R242). -/
def TxBuf.hasRoom (t : TxBuf) (n : Nat) : Prop := ∀ f, t.free = some f → n ≤ f

/-- `TxAppend` of each symbol of a list, in order. -/
def txAppendAll (t : TxBuf) : List OokSymbol → Option TxBuf
  | []        => some t
  | sym :: ss => (txAppend t sym).bind (fun t' => txAppendAll t' ss)

/-- A symbol word's operation: its symbol is appended to TXBUF (notes/assumptions/5.md). -/
def appendSymbol (sym : OokSymbol) (s : State) : Host.Outcome State Fault Refusal :=
  match txAppend s.tx sym with
  | none   => callerError .txbufOverrun
  | some t => .next (State.finish { s with tx := t } .none [])

/-- `ChPush(m)` (R181): accepted while there is room. On a full channel the policy decides (R180, U5): drop-newest
leaves `ch.q` unchanged; under drop-oldest, not this machine's policy, the new message enters and the oldest is lost
(R183; notes/assumptions/21.md). -/
def chPush (c : Config) (q : List U16) (m : U16) : List U16 × PushResult :=
  if q.length < c.chCap then (q ++ [m], .accepted)
  else match c.chPolicy with
    | .dropNewest => (q, .dropped)
    | .dropOldest => ((q ++ [m]).drop 1, .dropped)

/-- `ChPop()`: the oldest message, removed; `none` on an empty channel (R15, R182). -/
def chPop : List U16 → Option U16 × List U16
  | []     => (none, [])
  | m :: q => (some m, q)

/-- ENC after device reset (R230); `enc.msg` is unspecified there, a free value. -/
def encAfterReset (n : Nat) : EncState := { step := .reset, bit := 0, msg := Config.unspecified n }

/-- DEC after device reset (R230); `dec.last` is unspecified there, a free value, unless `DEC_LAST_RESET` gives one
(U7). -/
def decAfterReset (c : Config) (n : Nat) : DecState :=
  match c.decLastReset with
  | none   => { cnt := 0, acc := 0, last := Config.unspecified n, lastValid := false }
  | some m => { cnt := 0, acc := 0, last := m, lastValid := true }

/-- Device reset "puts every state element at the value of R39" (R230). TXBUF is the collaborator's and stays, as do
the history and the inputs that follow; a block out of reset is out of it again, "idle and waits for its first operation" (notes/assumptions/10.md, 11.md). -/
def deviceReset (c : Config) (s : State) : State :=
  { s with
      enc := encAfterReset s.draws, dec := decAfterReset c (s.draws + 1), ch := [], result := .none, events := [],
      draws := s.draws + 2 }

end Sys2Proof.Machine
end

