-- ==== Sys2Proof/Machine/Channel.lean ====
section
/-! DEFINITION. CH, the delivery channel's caller operation (43_delivery_channel.md). -/

namespace Sys2Proof.Machine

/-- `CH.POP` (R182): the oldest pending message, removed, or `none`. -/
def execChPop (s : State) : Host.Outcome State Fault Refusal :=
  .next (State.finish { s with ch := (chPop s.ch).2 } (.popped (chPop s.ch).1) [])

end Sys2Proof.Machine
end

