-- ==== Sys2Proof/Machine/Comparators.lean ====
section
/-! DEFINITION. CMP, the window comparators (40_timing_comparators.md): pure functions of their operands and the
constants (R112). -/

namespace Sys2Proof.Machine

/-- `win(d, t) := (t - MARGIN <= 2*d) and (2*d <= t + MARGIN)`, over the integers (R102, R104, R13). -/
def win (c : Config) (d : Duration) (t : Nat) : Bool :=
  decide ((t : Int) - (c.margin : Int) ≤ (c.tickFactor : Int) * (d.toNat : Int)) &&
  decide ((c.tickFactor : Int) * (d.toNat : Int) ≤ (t : Int) + (c.margin : Int))

/-- Comparator `Zh` of the bank (R105). -/
def winZeroHigh (c : Config) (sym : OokSymbol) : Bool := win c sym.high c.zeroHigh.toNat

/-- Comparator `Zl` of the bank (R105). -/
def winZeroLow (c : Config) (sym : OokSymbol) : Bool := win c sym.low c.zeroLow.toNat

/-- Comparator `Oh` of the bank (R105). -/
def winOneHigh (c : Config) (sym : OokSymbol) : Bool := win c sym.high c.oneHigh.toNat

/-- Comparator `Ol` of the bank (R105). -/
def winOneLow (c : Config) (sym : OokSymbol) : Bool := win c sym.low c.oneLow.toNat

/-- `classify(sym, last)` (R106): zero is tested first (R107, U16), and the low duration is exempt when `last`. -/
def classify (c : Config) (sym : OokSymbol) (last : Bool) : Classification :=
  if winZeroHigh c sym && (last || winZeroLow c sym) then .zero
  else if winOneHigh c sym && (last || winOneLow c sym) then .one
  else .invalid

/-- `CMP.WIN d, t` (R102): no state read or written but the result port. -/
def execCmpWin (d : Duration) (t : Nat) (s : State) : Host.Outcome State Fault Refusal :=
  .next (s.finish (.window (win config d t)) [])

/-- `CMP.CLASSIFY sym, last` (R106): no state read or written but the result port. -/
def execCmpClassify (sym : OokSymbol) (last : Bool) (s : State) : Host.Outcome State Fault Refusal :=
  .next (s.finish (.classified (classify config sym last)) [])

end Sys2Proof.Machine
end

