-- ==== Sys2Proof/Machine/Operands.lean ====
section
/-! DEFINITION. Reading and placing the bits of a message, in the payload's order (20_memory.md R53), and the unit
conversion of a loop-back path (R66). -/

namespace Sys2Proof.Machine

/-- The message bit that payload symbol `j` carries, and the accumulator bit that the `j`-th valid symbol of a run
writes: `15 - j`, most significant first (R53); `j` under the other value of `PAYLOAD_MSB_FIRST`. -/
def bitIndex (c : Config) (j : Nat) : Nat := if c.payloadMsbFirst then 15 - j else j

/-- `enc.msg[15 - j]` (R124). -/
def payloadBit (c : Config) (m : U16) (j : Nat) : Bool := m.getLsbD (bitIndex c j)

/-- `ONE` for a payload bit of 1, `ZERO` for 0 (R73). -/
def bitSymbol (c : Config) (b : Bool) : OokSymbol := if b then c.one else c.zero

/-- `v[i] <- b`, the other bits unchanged (R153, R155). -/
def setBit (v : U16) (i : Nat) (b : Bool) : U16 := if b then v ||| (1#16 <<< i) else v &&& ~~~(1#16 <<< i)

/-- `dec.acc[15 - n] <- b` (R155). -/
def placeBit (c : Config) (acc : U16) (n : Nat) (b : Bool) : U16 := setBit acc (bitIndex c n) b

/-- `ToTicks((h, l)) = (h div 2, l div 2)`: an environment function, not part of the block (R66, D2). -/
def toTicks (s : OokSymbol) : OokSymbol :=
  ⟨BitVec.ofNat 16 (s.high.toNat / 2), BitVec.ofNat 16 (s.low.toNat / 2)⟩

end Sys2Proof.Machine
end

