-- ==== Sys2Proof/Machine/Decoder.lean ====
section
/-! DEFINITION. DEC, the timing-tolerant decoder (42_symbol_decoder.md). -/

namespace Sys2Proof.Machine

/-- What one or more DEC.SYM steps give: DEC and the channel after them, and their events in order. -/
structure DecRun where
  dec    : DecState
  ch     : List U16
  events : List Event
deriving DecidableEq, Repr

/-- DEC.BEGIN's writes: `dec.cnt <- 0 ; dec.acc <- 0` (R152); the latch is kept unless `LATCH_PER_BATCH` (U6). -/
def decBegin (c : Config) (d : DecState) : DecState :=
  { d with cnt := 0, acc := 0, lastValid := d.lastValid && !c.latchPerBatch }

/-- An invalid symbol abandons the run (R158): one diagnostic if more than `DIAG_THRESHOLD` bits were accumulated;
`dec.acc` is not cleared (R30). -/
def decAbandon (c : Config) (d : DecState) (q : List U16) : DecRun :=
  { dec := { d with cnt := 0 }, ch := q,
    events := if c.diagThreshold < d.cnt.val then [.diag d.cnt.val] else [] }

/-- The message is new: the latch is empty or holds another value (R156 step 2, R157). -/
def isNew (d : DecState) (m : U16) : Bool := !d.lastValid || m != d.last

/-- The frame validator on a full accumulator, one indivisible step (R156, R63): push if new, write the latch
"regardless of emission", reset the cursor. -/
def decComplete (c : Config) (d : DecState) (q : List U16) : DecRun :=
  let m := d.acc
  let after : DecState := { d with last := m, lastValid := true, cnt := 0 }
  if isNew d m then
    match chPush c q m with
    | (q', .accepted) => { dec := after, ch := q', events := [.emit m] }
    | (q', .dropped)  => { dec := after, ch := q', events := [.overflow m] }
  else { dec := after, ch := q, events := [] }

/-- A valid symbol of bit `b` (R155): write the bit, advance the cursor, complete the frame at 16 (R153). -/
def decAccept (c : Config) (d : DecState) (q : List U16) (b : Bool) : DecRun :=
  let acc := placeBit c d.acc d.cnt.val b
  if h : d.cnt.val + 1 < 16 then
    { dec := { d with acc := acc, cnt := ⟨d.cnt.val + 1, Nat.lt_succ_of_lt h⟩ }, ch := q, events := [] }
  else decComplete c { d with acc := acc } q

/-- `DEC.SYM` as a function (R153): classify, the 16th bit's low duration exempt (R154), then accept or abandon. -/
def decSymbol (c : Config) (d : DecState) (q : List U16) (sym : OokSymbol) : DecRun :=
  match classify c sym (d.cnt.val == 15) with
  | .invalid => decAbandon c d q
  | .zero    => decAccept c d q false
  | .one     => decAccept c d q true

/-- DEC.SYM over the symbols of a batch in order, the events in their symbols' order (R60, R151, R164). -/
def decSymbols (c : Config) : DecState → List U16 → List OokSymbol → DecRun
  | d, q, []        => { dec := d, ch := q, events := [] }
  | d, q, sym :: ss =>
    let first := decSymbol c d q sym
    let rest := decSymbols c first.dec first.ch ss
    { rest with events := first.events ++ rest.events }

/-- Put a decoder run's outcome into the machine. -/
def State.afterDec (s : State) (r : DecRun) : State := State.finish { s with dec := r.dec, ch := r.ch } .none r.events

/-- `DEC.DECODE batch` (R151): DEC.BEGIN, then DEC.SYM of each symbol; nothing at the end (R159). -/
def execDecDecode (batch : List OokSymbol) (s : State) : Host.Outcome State Fault Refusal :=
  .next (s.afterDec (decSymbols config (decBegin config s.dec) s.ch batch))

/-- `DEC.BEGIN` (R152). -/
def execDecBegin (s : State) : Host.Outcome State Fault Refusal :=
  .next (State.finish { s with dec := decBegin config s.dec } .none [])

/-- `DEC.SYM sym` (R153); `dec.cnt` is "0 to 15 before and after every DEC.SYM" (R29), and at 16 the rule's bit index
names no bit (notes/assumptions/14.md). -/
def execDecSym (sym : OokSymbol) (s : State) : Host.Outcome State Fault Refusal :=
  if s.dec.cnt.val = 16 then .refused .cntSixteenAtStart
  else .next (s.afterDec (decSymbol config s.dec s.ch sym))

end Sys2Proof.Machine
end

