-- ==== Sys2Proof/Machine/Encoder.lean ====
section
/-! DEFINITION. ENC, the pulse encoder (41_frame_encoder.md, 10_state.md R21 to R27). -/

namespace Sys2Proof.Machine

/-- The type of the next sub-step (R22). -/
inductive SubStep where
  | header | payload | delay | done
deriving DecidableEq, Repr

/-- `kind(step)` (R22). -/
def EncStep.kind : EncStep → SubStep
  | .reset        => .header
  | .headerDone   => .payload
  | .payload0Done => .delay
  | .delay0Done   => .payload
  | .payload1Done => .delay
  | .delay1Done   => .payload
  | .payload2Done => .delay
  | .delay2Done   => .payload
  | .payload3Done => .done

/-- `succ(step)`, "not defined" at `Payload3Done` (R22). -/
def EncStep.succ : EncStep → Option EncStep
  | .reset        => some .headerDone
  | .headerDone   => some .payload0Done
  | .payload0Done => some .delay0Done
  | .delay0Done   => some .payload1Done
  | .payload1Done => some .delay1Done
  | .delay1Done   => some .payload2Done
  | .payload2Done => some .delay2Done
  | .delay2Done   => some .payload3Done
  | .payload3Done => none

/-- The payload case of `enc_emit1` (R124): one message bit, and the resume position moves on. -/
def emitPayload (c : Config) (e : EncState) (next : EncStep) : OokSymbol × EncState :=
  (bitSymbol c (payloadBit c e.msg e.bit.val),
    if e.bit = 15 then { e with bit := 0, step := next } else { e with bit := e.bit + 1 })

/-- `enc_emit1`, "defined when `enc.step ≠ Payload3Done`": the next symbol and the cursor after it (R124). -/
def encEmit1 (c : Config) (e : EncState) : Option (OokSymbol × EncState) :=
  match e.step.succ with
  | none => none
  | some next =>
    match e.step.kind with
    | .header  => some (c.header, { e with step := next })
    | .delay   => some (c.delay, { e with step := next })
    | .payload => some (emitPayload c e next)
    | .done    => none

/-- What one ENC.ENCODE's loop gives: the symbols in order, the status, ENC after it. -/
structure EncRun where
  symbols : List OokSymbol
  status  : Status
  enc     : EncState
deriving DecidableEq, Repr

/-- The loop of ENC.ENCODE over the space left (R125). Completion is tested before space (R126), so an exact fit is
`FrameComplete`; on completion the cursor goes back to `Reset`. -/
def encLoop (c : Config) : Nat → EncState → EncRun
  | 0, e =>
    match encEmit1 c e with
    | none   => { symbols := [], status := .frameComplete, enc := { e with step := .reset } }
    | some _ => { symbols := [], status := .bufferFull, enc := e }
  | space + 1, e =>
    match encEmit1 c e with
    | none => { symbols := [], status := .frameComplete, enc := { e with step := .reset } }
    | some (sym, e') =>
      let rest := encLoop c space e'
      { rest with symbols := sym :: rest.symbols }

/-- The first step of ENC.ENCODE: sample the message at `Reset`, else require the one in flight (R122, R132); a call
cannot begin at `Payload3Done` (R25, U11). -/
def encStart (e : EncState) (message : U16) : Except Refusal EncState :=
  if e.step = .reset then .ok { e with msg := message }
  else if e.step = .payload3Done then .error .payload3DoneAtStart
  else if message = e.msg then .ok e
  else .error .messageChangedMidFrame

/-- Hand the loop's symbols to TXBUF, in order, and its status and count to the caller (R125, R126). -/
def encDeliver (run : EncRun) (s : State) : Host.Outcome State Fault Refusal :=
  match txAppendAll s.tx run.symbols with
  | none   => callerError .txbufOverrun
  | some t => .next (State.finish { s with enc := run.enc, tx := t }
                (.encoded run.symbols.length run.status run.symbols) [])

/-- `ENC.ENCODE capacity, message` (R125). -/
def execEncEncode (capacity : Nat) (message : U16) (s : State) : Host.Outcome State Fault Refusal :=
  match encStart s.enc message with
  | .error r => callerError r
  | .ok e    => encDeliver (encLoop config capacity e) s

/-- `ENC.RESET`: `enc.step <- Reset ; enc.bit <- 0`, `enc.msg` left as it is (R130). -/
def execEncReset (s : State) : Host.Outcome State Fault Refusal :=
  .next (State.finish { s with enc := { s.enc with step := .reset, bit := 0 } } .none [])

end Sys2Proof.Machine
end

