-- ==== Sys2Proof/Machine/Payload.lean ====
section
/-! DEFINITION. PM, the payload mapping: pure functions (44_payload_mapping.md). -/

namespace Sys2Proof.Machine

/-- The code of a selector and a state (R191): `(on << 15) | (s << 10) |` the fixed bits `| PM_LOW_BYTE`. -/
def pmCode (c : Config) (sel : BitVec 2) (on : Bool) : U16 :=
  ((BitVec.ofBool on).setWidth 16 <<< c.pmOnBit) ||| (sel.setWidth 16 <<< c.pmSelLo) |||
    ((c.pmFixedValue &&& c.pmFixedMask).setWidth 16 <<< 8) ||| c.pmLowByte.setWidth 16

/-- `m[7:0]` (R190). -/
def pmLow (m : U16) : Byte := m.extractLsb' 0 8

/-- `m[15:8]` (R193). -/
def pmHigh (m : U16) : Byte := m.extractLsb' 8 8

/-- `m[11:10]`, the channel selector (R190). -/
def pmSel (c : Config) (m : U16) : BitVec 2 := m.extractLsb' c.pmSelLo 2

/-- `m[15]`, on or off (R190). -/
def pmOn (c : Config) (m : U16) : Bool := m.getLsbD c.pmOnBit

/-- `PM.DEC` as a function (R193): low byte, fixed bits, selector, in that order (R211). -/
def pmDecode (c : Config) (m : U16) : PayloadResult :=
  if pmLow m ≠ c.pmLowByte then .invalidCode
  else if pmHigh m &&& c.pmFixedMask ≠ c.pmFixedValue then .invalidCode
  else match c.channelOf (pmSel c m) with
    | none         => .invalidCode
    | some channel => .pair channel (pmOn c m)

/-- `PM.ENC` as a function (R191), `none` for an identifier not in the table (R192). -/
def pmEncode (c : Config) (channel : Byte) (on : Bool) : Option U16 :=
  (c.selector channel).map (fun sel => pmCode c sel on)

/-- `PM.ENC channel, on` (R191): total on a supported channel, a caller error on any other (U2). -/
def execPmEnc (channel : Byte) (on : Bool) (s : State) : Host.Outcome State Fault Refusal :=
  match pmEncode config channel on with
  | none   => callerError (.unsupportedChannel channel)
  | some m => .next (s.finish (.code m) [])

/-- `PM.DEC message` (R193): `InvalidCode` is a result value (R207). -/
def execPmDec (message : U16) (s : State) : Host.Outcome State Fault Refusal :=
  .next (s.finish (.payload (pmDecode config message)) [])

end Sys2Proof.Machine
end

