-- ==== Sys2Proof/Machine/SymbolWords.lean ====
section
/-! DEFINITION. The four symbol words of the opcode table (30_encoding.md R71, R72). They are the words on the wire, no
operation of R80; the one effect the spec gives a symbol of this alphabet is TxAppend (R15, R50), so that is their
meaning. DESIGN CHOICE: notes/assumptions/5.md. -/

namespace Sys2Proof.Machine

/-- The word `ZERO`: `TxAppend(ZERO)`. -/
def execZero (s : State) : Host.Outcome State Fault Refusal := appendSymbol config.zero s

/-- The word `ONE`: `TxAppend(ONE)`. -/
def execOne (s : State) : Host.Outcome State Fault Refusal := appendSymbol config.one s

/-- The word `HEADER`: `TxAppend(HEADER)`. -/
def execHeader (s : State) : Host.Outcome State Fault Refusal := appendSymbol config.header s

/-- The word `DELAY`: `TxAppend(DELAY)`. -/
def execDelay (s : State) : Host.Outcome State Fault Refusal := appendSymbol config.delay s

end Sys2Proof.Machine
end

