-- ==== Sys2Proof/Machine/Dispatch.lean ====
section
/-! DEFINITION. One arm per row of spec/opcode_table.json (30_encoding.md R80, R72). -/

namespace Sys2Proof.Machine

def exec (i : Instr) (s : State) : Host.Outcome State Fault Refusal :=
  match i with
  | .encEncode capacity message => Sys2Proof.Machine.execEncEncode capacity message s
  | .encReset => Sys2Proof.Machine.execEncReset s
  | .decDecode batch => Sys2Proof.Machine.execDecDecode batch s
  | .decBegin => Sys2Proof.Machine.execDecBegin s
  | .decSym sym => Sys2Proof.Machine.execDecSym sym s
  | .chPop => Sys2Proof.Machine.execChPop s
  | .cmpWin d t => Sys2Proof.Machine.execCmpWin d t s
  | .cmpClassify sym last => Sys2Proof.Machine.execCmpClassify sym last s
  | .pmEnc channel on => Sys2Proof.Machine.execPmEnc channel on s
  | .pmDec message => Sys2Proof.Machine.execPmDec message s
  | .zero => Sys2Proof.Machine.execZero s
  | .one => Sys2Proof.Machine.execOne s
  | .header => Sys2Proof.Machine.execHeader s
  | .delay => Sys2Proof.Machine.execDelay s

end Sys2Proof.Machine
end

