-- ==== Sys2Proof/Decode.lean ====
section
/-! DEFINITION. The decoder, from a request's code word and ports to an operation or a rejection by name, and after it
the encoder (30_encoding.md R70, R71, R80, R82; spec/opcode_table.json). -/

namespace Sys2Proof

/-- `word[31:16] = high`, `word[15:0] = low` (R71). -/
def unpackSymbol (w : BitVec 32) : OokSymbol := ⟨w.extractLsb' 16 16, w.extractLsb' 0 16⟩

/-- The listing word of a symbol (R71). -/
def packSymbol (s : OokSymbol) : BitVec 32 := s.high ++ s.low

/-- Why a code word names no operation. -/
inductive DecodeError where
  /-- a select code `0000` or `1011` to `1111`, which names no operation (R82) -/
  | unusedSelectCode (op : BitVec 4)
  /-- a wider word that is none of the four symbol words of the table (R72, R82) -/
  | unknownWord (w : BitVec 32)
deriving DecidableEq, Repr

/-- One row of the operation table: its code, and how its operands are read from the ports. -/
structure CodeRow where
  code : BitVec 32
  read : Ports → Instr

/-- The operation table (R80, R72), in the order of spec/opcode_table.json. -/
def codeTable : List CodeRow :=
  [ ⟨0b0001#32, fun p => .encEncode p.capacity p.message⟩,
    ⟨0b0010#32, fun _ => .encReset⟩,
    ⟨0b0011#32, fun p => .decDecode (p.batch.map unpackSymbol)⟩,
    ⟨0b0100#32, fun _ => .decBegin⟩,
    ⟨0b0101#32, fun p => .decSym (unpackSymbol p.sym)⟩,
    ⟨0b0110#32, fun _ => .chPop⟩,
    ⟨0b0111#32, fun p => .cmpWin p.d p.t⟩,
    ⟨0b1000#32, fun p => .cmpClassify (unpackSymbol p.sym) (p.last == 1#1)⟩,
    ⟨0b1001#32, fun p => .pmEnc p.channel (p.on == 1#1)⟩,
    ⟨0b1010#32, fun p => .pmDec p.message⟩,
    ⟨0x01070244#32, fun _ => .zero⟩,
    ⟨0x02AD009E#32, fun _ => .one⟩,
    ⟨0x0AAA0820#32, fun _ => .header⟩,
    ⟨0x03E803E8#32, fun _ => .delay⟩ ]

/-- Why a word outside the table is rejected: by its width, as a select code or as a symbol word. -/
def rejection (w : BitVec 32) : DecodeError :=
  if w.toNat < 16 then .unusedSelectCode (w.setWidth 4) else .unknownWord w

/-- The operation a request asks for. Total: a code outside the table is rejected by name (R82). -/
def decode (r : Request) : Except DecodeError Instr :=
  match codeTable.find? (fun row => row.code == r.code) with
  | some row => .ok (row.read r.ports)
  | none     => .error (rejection r.code)

/-- The code word and ports of an operation, written from the same table; ports it does not name are zero. -/
def encode : Instr → Request
  | .encEncode capacity message => ⟨0b0001#32, { Ports.zero with capacity := capacity, message := message }⟩
  | .encReset                   => ⟨0b0010#32, Ports.zero⟩
  | .decDecode batch            => ⟨0b0011#32, { Ports.zero with batch := batch.map packSymbol }⟩
  | .decBegin                   => ⟨0b0100#32, Ports.zero⟩
  | .decSym sym                 => ⟨0b0101#32, { Ports.zero with sym := packSymbol sym }⟩
  | .chPop                      => ⟨0b0110#32, Ports.zero⟩
  | .cmpWin d t                 => ⟨0b0111#32, { Ports.zero with d := d, t := t }⟩
  | .cmpClassify sym last       => ⟨0b1000#32, { Ports.zero with sym := packSymbol sym, last := BitVec.ofBool last }⟩
  | .pmEnc channel on           => ⟨0b1001#32, { Ports.zero with channel := channel, on := BitVec.ofBool on }⟩
  | .pmDec message              => ⟨0b1010#32, { Ports.zero with message := message }⟩
  | .zero                       => ⟨0x01070244#32, Ports.zero⟩
  | .one                        => ⟨0x02AD009E#32, Ports.zero⟩
  | .header                     => ⟨0x0AAA0820#32, Ports.zero⟩
  | .delay                      => ⟨0x03E803E8#32, Ports.zero⟩

/-- The request whose instruction bits are `w`, of which the table gives `nbits`: bits above are zero, and so is every
operand port (the table's rows give their operands no bits). -/
def requestOfWord (nbits w : Nat) : Request := ⟨BitVec.ofNat 32 (w % 2 ^ nbits), Ports.zero⟩

/-- What the decoder reads from a table word (host's name). -/
def decodeTableWord (nbits w : Nat) : Option Instr :=
  match decode (requestOfWord nbits w) with
  | .ok i    => some i
  | .error _ => none

end Sys2Proof
end

