-- ==== Sys2Proof/Machine/Requests.lean ====
section
/-! DEFINITION. Taking the next input (60_exceptions.md R215): what stands in the place of an instruction fetch. -/

namespace Sys2Proof.Machine

/-- What the oldest input asks of the machine. -/
inductive Taken where
  /-- no input: the block "is idle and waits for its first operation" (R230) -/
  | idle
  /-- an event of the environment, and the state after it -/
  | event (s : State)
  /-- an operation, and the state that has taken its request -/
  | operation (i : Instr) (s : State)
  /-- a request the decoder rejects (R82), or an input with no place at this stage (R208) -/
  | rejected (r : Refusal)
  /-- construction failed (R208) -/
  | failed (f : Fault)
deriving DecidableEq, Repr

/-- The refusal that answers a rejected code (R82). -/
def refusalOf : DecodeError → Refusal
  | .unusedSelectCode op => .unusedSelectCode op
  | .unknownWord w       => .unknownWord w

/-- An operation runs only once the block is out of reset; before that "no rule of this spec applies" (R208). -/
def admitOperation (i : Instr) (s : State) : Taken :=
  if s.outOfReset then .operation i s else .rejected .notOutOfReset

/-- Startup's report on construction, "a condition of the boot sequence, not of any operation" (R208): a failure is
fatal and the block never leaves reset, a success brings it out of reset. Out of reset there is nothing to report. -/
def endConstruction (succeeded : Bool) (s : State) : Taken :=
  if s.outOfReset then .rejected .constructionIsOver
  else if succeeded then .event { s with outOfReset := true }
  else .failed .constructionFailure

/-- Take one input off the queue, whose tail is `rest`. -/
def takeInput (input : Input) (rest : List Input) (s : State) : Taken :=
  let s' : State := { s with pending := rest }
  match input with
  | .request r =>
    match decode r with
    | .ok i    => admitOperation i s'
    | .error e => .rejected (refusalOf e)
  | .txSpace free        => .event { s' with tx := { s'.tx with free := free } }
  | .deviceReset         => .event (deviceReset config s')
  | .constructionFailure => endConstruction false s'
  | .constructionSuccess => endConstruction true s'

/-- The next input, in the order the environment put them (R61). -/
def nextInput (s : State) : Taken :=
  match s.pending with
  | []            => .idle
  | input :: rest => takeInput input rest s

/-- Put a request before every input still waiting, to a block out of reset. -/
def presentFirst (r : Request) (s : State) : State :=
  { s with outOfReset := true, pending := .request r :: s.pending }

end Sys2Proof.Machine
end

