-- ==== Sys2Proof/Machine/Step.lean ====
section
/-! DEFINITION. One step of the machine: one input taken, one atomic transition (00_scope.md R11). -/

namespace Sys2Proof.Machine

/-- One step. With no input waiting the block stays as it is (R230); a request to
a block out of reset runs its operation. -/
def step (s : State) : Host.Outcome State Fault Refusal :=
  match nextInput s with
  | .idle           => .next s
  | .event s'       => .next s'
  | .operation i s' => exec i s'
  | .rejected r     => .refused r
  | .failed f       => .fault f

/-- `s`, out of reset, with a table word presented as the next request, every operand port zero (host's name;
notes/assumptions/3.md). -/
def State.withFetchWord (s : State) (nbits w : Nat) : State := presentFirst (requestOfWord nbits w) s

end Sys2Proof.Machine
end

