-- ==== Sys2Proof/Machine/ShiftDecoder.lean ====
section
/-! DEFINITION. The other accumulator R155 allows: "shifting `dec.acc` left by one and inserting `b` at bit 0 for each
valid symbol gives the same 16-bit value after 16 symbols, and a model may use either form" (90_conflicts.md C6). The
machine does not use it; a claim compares the two designs. -/

namespace Sys2Proof.Machine

/-- Shift left by one and insert the bit at bit 0 (R155). -/
def shiftIn (acc : U16) (b : Bool) : U16 := (acc <<< 1) ||| (BitVec.ofBool b).setWidth 16

/-- A valid symbol under the shift form; the rest is R153's. -/
def decAcceptShift (c : Config) (d : DecState) (q : List U16) (b : Bool) : DecRun :=
  let acc := shiftIn d.acc b
  if h : d.cnt.val + 1 < 16 then
    { dec := { d with acc := acc, cnt := ⟨d.cnt.val + 1, Nat.lt_succ_of_lt h⟩ }, ch := q, events := [] }
  else decComplete c { d with acc := acc } q

/-- DEC.SYM under the shift form. -/
def decSymbolShift (c : Config) (d : DecState) (q : List U16) (sym : OokSymbol) : DecRun :=
  match classify c sym (d.cnt.val == 15) with
  | .invalid => decAbandon c d q
  | .zero    => decAcceptShift c d q false
  | .one     => decAcceptShift c d q true

/-- A batch under the shift form. -/
def decSymbolsShift (c : Config) : DecState → List U16 → List OokSymbol → DecRun
  | d, q, []        => { dec := d, ch := q, events := [] }
  | d, q, sym :: ss =>
    let first := decSymbolShift c d q sym
    let rest := decSymbolsShift c first.dec first.ch ss
    { rest with events := first.events ++ rest.events }

end Sys2Proof.Machine
end

