-- ==== Sys2Proof/Machine/Flags.lean ====
section
/-! DEFINITION. Status values and the codes the spec gives the enumerated values (10_state.md R38, 30_encoding.md R78,
R79). No rule depends on a code (D7); the machine works on the inductive types. -/

namespace Sys2Proof.Machine

/-- The 4-bit code of `enc.step` (R78). -/
def EncStep.code : EncStep → BitVec 4
  | .reset => 0 | .headerDone => 1 | .payload0Done => 2 | .delay0Done => 3 | .payload1Done => 4
  | .delay1Done => 5 | .payload2Done => 6 | .delay2Done => 7 | .payload3Done => 8

/-- The value a 4-bit code of `enc.step` names; codes 9 to 15 name none (R83). -/
def EncStep.ofCode (c : BitVec 4) : Option EncStep :=
  [EncStep.reset, .headerDone, .payload0Done, .delay0Done, .payload1Done, .delay1Done, .payload2Done, .delay2Done,
    .payload3Done].find? (fun s => s.code == c)

/-- The 1-bit code of the completion status (R78). -/
def Status.code : Status → BitVec 1
  | .bufferFull => 0 | .frameComplete => 1

/-- The 2-bit code of a classification (R78). -/
def Classification.code : Classification → BitVec 2
  | .zero => 0 | .one => 1 | .invalid => 2

/-- The 1-bit code of `ChPush`'s result (R78). -/
def PushResult.code : PushResult → BitVec 1
  | .dropped => 0 | .accepted => 1

/-- The 2-bit kind code of an event (R79). -/
def Event.kindCode : Event → BitVec 2
  | .emit _ => 0 | .overflow _ => 1 | .diag _ => 2

/-- A frame is in flight: "can be read as `enc.step ≠ Reset`" (R38). -/
def EncState.inFlight (e : EncState) : Bool := e.step != .reset

/-- The messages an event list reports as having entered the channel (R203). -/
def emitted : List Event → List U16
  | [] => []
  | .emit m :: es => m :: emitted es
  | .overflow _ :: es => emitted es
  | .diag _ :: es => emitted es

end Sys2Proof.Machine
end

