-- ==== Sys2Proof/Machine/Frame.lean ====
section
/-! DEFINITION. The frame and its positions, the closed form beside ENC's machine (10_state.md R26, R27,
41_frame_encoder.md R127, R129). -/

namespace Sys2Proof.Machine

/-- `payload(m)`, sixteen symbols (R129). -/
def payloadSymbols (c : Config) (m : U16) : List OokSymbol :=
  (List.range 16).map (fun j => bitSymbol c (payloadBit c m j))

/-- `frame(m)`, 68 symbols (R129). -/
def frame (c : Config) (m : U16) : List OokSymbol :=
  [c.header] ++ payloadSymbols c m ++ [c.delay] ++ payloadSymbols c m ++ [c.delay] ++ payloadSymbols c m ++
    [c.delay] ++ payloadSymbols c m

/-- The symbol at position `p` of the frame by R27's arithmetic: repetition `(p - 1) div 17`, bit index
`(p - 1) mod 17`. -/
def frameSymbolAt (c : Config) (m : U16) (p : Nat) : OokSymbol :=
  if p = 0 then c.header
  else if p = 17 ∨ p = 34 ∨ p = 51 then c.delay
  else bitSymbol c (payloadBit c m ((p - 1) % 17))

/-- Where a sub-step starts in the frame (R26). -/
def EncStep.base : EncStep → Nat
  | .reset        => 0
  | .headerDone   => 1
  | .payload0Done => 17
  | .delay0Done   => 18
  | .payload1Done => 34
  | .delay1Done   => 35
  | .payload2Done => 51
  | .delay2Done   => 52
  | .payload3Done => 68

/-- `pos(step, bit)`, the number of symbols of the frame already emitted (R26). -/
def pos (step : EncStep) (bit : Fin 16) : Nat := step.base + bit.val

/-- The cursor at a position (R26: `pos` is a bijection onto 0 to 67). -/
def cursorAt (p : Nat) : EncStep × Fin 16 :=
  if p = 0 then (.reset, 0)
  else if p < 17 then (.headerDone, Fin.ofNat 16 (p - 1))
  else if p = 17 then (.payload0Done, 0)
  else if p < 34 then (.delay0Done, Fin.ofNat 16 (p - 18))
  else if p = 34 then (.payload1Done, 0)
  else if p < 51 then (.delay1Done, Fin.ofNat 16 (p - 35))
  else if p = 51 then (.payload2Done, 0)
  else if p < 68 then (.delay2Done, Fin.ofNat 16 (p - 52))
  else (.payload3Done, 0)

end Sys2Proof.Machine
end

