-- ==== Sys2Proof/Machine/Sequences.lean ====
section
/-! DEFINITION. Sequences of operations with no other agent between them, and the pseudo-operations of 30_encoding.md
R86 as such sequences. -/

namespace Sys2Proof.Machine

/-- Run operations in order, stopping at the first refusal or fault (95_test_vectors.md part 3: "runs its operations in
the order written with no other agent acting between them"). -/
def execAll : List Instr → State → Host.Outcome State Fault Refusal
  | [],      s => .next s
  | i :: is, s =>
    match exec i s with
    | .next s'   => execAll is s'
    | .fault f   => .fault f
    | .refused r => .refused r

/-- ENC.ENCODE of one message with each capacity in turn. -/
def encodeCalls (m : U16) (capacities : List Nat) : List Instr := capacities.map (fun n => .encEncode n m)

/-- `ENC.FRAME msg`, allowed at `enc.step = Reset` (R86). -/
def encFrame (m : U16) : List Instr := encodeCalls m [68]

/-- `ENC.DRAIN c, msg`, for `c >= 1`: as many calls as the symbols still due need (R86). -/
def encDrain (s : State) (n : Nat) (m : U16) : List Instr :=
  encodeCalls m (List.replicate ((68 - pos s.enc.step s.enc.bit + n - 1) / n) n)

/-- The composite form of `DEC.DECODE batch` (R86, R151). -/
def decodeBySymbols (batch : List OokSymbol) : List Instr := .decBegin :: batch.map .decSym

/-- `LOOP syms` (R86, R66). -/
def loopBack (syms : List OokSymbol) : Instr := .decDecode (syms.map toTicks)

/-- `CH.DRAIN`: pops until `none` (R86). -/
def chDrain (s : State) : List Instr := List.replicate (s.ch.length + 1) .chPop

end Sys2Proof.Machine
end

