-- ==== Sys2Proof/Safety.lean ====
section
/-! DEFINITION. What counts as a state the block can be in, and whose operation an instruction is, in the terms the
claims use (10_state.md R25, R33, R34, 60_exceptions.md R210, R215). -/

namespace Sys2Proof.Machine

/-- (I-E1) and (I-E2), which hold between any two ENC operations (R25). -/
structure EncState.Inv (e : EncState) : Prop where
  /-- `Payload3Done` is entered and left inside one ENC.ENCODE -/
  notDone : e.step ≠ .payload3Done
  /-- only a payload sub-step has a resume position -/
  bitOnlyInPayload : e.bit ≠ 0 → e.step.kind = .payload

/-- The bounds an event record has: `Diag(n)` with `n` in 3 to 15 (R79, R205). -/
def Event.inRange : Event → Prop
  | .diag n     => 3 ≤ n ∧ n ≤ 15
  | .emit _     => True
  | .overflow _ => True

/-- The invariant of the whole machine: (I-E1), (I-E2), (I-D1), (I-C1) and the range of every diagnostic so far. -/
structure State.Inv (s : State) : Prop where
  enc : s.enc.Inv
  cnt : s.dec.cnt.val ≤ 15
  ch  : s.ch.length ≤ config.chCap
  log : ∀ ev ∈ s.log, ev.inRange

/-- The agents of R215, and beside them two that R215 does not list: the application, which calls the pure units (R210),
and the emission collaborator, which owns TXBUF (R7). DESIGN CHOICE: notes/assumptions/31.md. -/
inductive Agent where
  | enc | dec | consumer | application | emission
deriving DecidableEq, Repr

/-- Whose operation it is (R210, R215). DESIGN CHOICE where neither rule says (notes/assumptions/31.md): CMP's operations
are the application's, as PM's are, and a symbol word is the emission collaborator's. -/
def agentOf : Instr → Agent
  | .encEncode _ _ | .encReset              => .enc
  | .decDecode _ | .decBegin | .decSym _    => .dec
  | .chPop                                  => .consumer
  | .cmpWin _ _ | .cmpClassify _ _          => .application
  | .pmEnc _ _ | .pmDec _                   => .application
  | .zero | .one | .header | .delay         => .emission

/-- The host's execution contexts (R210); for the consumer and the application "a task context the source does not
number". -/
inductive CallContext where
  | completion | task | unnumbered
deriving DecidableEq, Repr

/-- The context an agent's operations are called from (R210). DESIGN CHOICE (notes/assumptions/31.md): CMP's operations
and the symbol words, which R210 does not place, run in the context it does not number. -/
def Agent.context : Agent → CallContext
  | .dec => .completion
  | .enc => .task
  | .consumer | .application | .emission => .unnumbered

/-- The block's own state, without the output ports, the history and the waiting inputs (R20, R37), and TXBUF. -/
structure Block where
  enc : EncState
  dec : DecState
  ch  : List U16
  tx  : TxBuf
deriving DecidableEq, Repr

/-- The block's part of a state. -/
def State.block (s : State) : Block := { enc := s.enc, dec := s.dec, ch := s.ch, tx := s.tx }

/-- What CH.POP handed to the consumer while a sequence ran, in order (R182, R184). -/
def poppedBy : List Instr → State → List U16
  | [],      _ => []
  | i :: is, s =>
    match exec i s with
    | .next t =>
      match t.result with
      | .popped (some m) => m :: poppedBy is t
      | _                => poppedBy is t
    | .fault _ | .refused _ => []

/-- What completing a frame of value `m` leaves (R156): DEC, the channel, the events. -/
def frameDelivered (s : State) (m : U16) : State :=
  let fresh := isNew s.dec m
  let ev : List Event := if fresh then (if s.ch.length < 4 then [.emit m] else [.overflow m]) else []
  { s with
      dec := { cnt := 0, acc := m, last := m, lastValid := true },
      ch := if fresh && decide (s.ch.length < 4) then s.ch ++ [m] else s.ch,
      result := .none, events := ev, log := s.log ++ ev }

/-- The captured image of a payload, `bits(m)` of 95_test_vectors.md. -/
def capturedBits (m : U16) : List OokSymbol := (payloadSymbols config m).map toTicks

end Sys2Proof.Machine
end

