-- ==== Sys2Proof/WellFormed.lean ====
section
/-! DEFINITION. Which operations and which parameter sets are well formed. The operand types already exclude a duration
or a message that is too wide (U12), and "every `(high, low)` pair is a legal input symbol", "every `u16` is a legal
message" (30_encoding.md R84), every natural a legal capacity (41_frame_encoder.md R121) and template (R101); so one
check is left on an operation: PM.ENC's operand is "a channel identifier present in `PM_CHANNELS`" (R191). -/

namespace Sys2Proof

/-- The operand rule of R191; every other operation is well formed with any operands. -/
def Instr.wellFormed (c : Config) : Instr → Bool
  | .pmEnc channel _ => (c.selector channel).isSome
  | .encEncode _ _ | .encReset | .decDecode _ | .decBegin | .decSym _ | .chPop | .cmpWin _ _ | .cmpClassify _ _
  | .pmDec _ | .zero | .one | .header | .delay => true

/-- No two rows share a first or a second component. -/
def tableInjective (rows : List (Byte × BitVec 2)) : Bool :=
  decide (rows.map Prod.fst).Nodup && decide (rows.map Prod.snd).Nodup

/-- What the rules require of a parameter set: the widths the types fix (R9, R71, R75), the frame shape (R27), the field
places of a code (R75, R190), a fixed pattern inside its mask (R190), a table injective both ways (R192). -/
def Config.wellFormed (c : Config) : Bool :=
  decide (c.msgW = 16) && decide (c.durW = 16) && decide (c.repeats = 4) && decide (c.delays = 3) &&
  decide (c.frameSymbols = 1 + c.repeats * c.msgW + c.delays) &&
  decide (c.pmOnBit = 15) && decide (c.pmSelHi = 11) && decide (c.pmSelLo = 10) && decide (c.pmFixedMask = 0x73) &&
  decide (c.pmFixedValue &&& ~~~c.pmFixedMask = 0) &&
  tableInjective c.pmTable

end Sys2Proof
end

