-- ==== Sys2Proof/Certificates/Slice0/Obligations.lean ====
section
/-! DEFINITION. The statements for the provers, by the spec's numbered rules. Where a statement gives a whole next state,
every field it does not write is unchanged: that is its frame. -/

open Sys2Proof Sys2Proof.Machine

/-! ### Reset and the step -/

/-- R39: the state after reset, every element the spec gives a value. -/
def Obligations.ResetLeavesListedValues : Prop :=
  State.reset.enc.step = .reset ∧ State.reset.enc.bit = 0 ∧ State.reset.dec.cnt = 0 ∧ State.reset.dec.acc = 0 ∧
    State.reset.dec.lastValid = false ∧ State.reset.ch = []

/-- R230, R231: device reset from any state. `enc.msg` and `dec.last` are left unspecified: some value. What the reset
does to the fields that are no state of the block is the model's choice (notes/assumptions/10.md, 11.md). -/
def Obligations.DeviceResetReachesEverything : Prop :=
  ∀ (s : State) (rest : List Input), s.pending = .deviceReset :: rest →
    ∃ x y : U16, step s = .next
      { s with enc := { step := .reset, bit := 0, msg := x },
               dec := { cnt := 0, acc := 0, last := y, lastValid := false },
               ch := [], result := .none, events := [], draws := s.draws + 2, pending := rest }

/-- The step of a block out of reset runs the operation its oldest request decodes to, the request taken. The queue of requests is the model's
choice (notes/assumptions/2.md, 3.md). -/
def Obligations.StepRunsDecodedOperation : Prop :=
  ∀ (s : State) (r : Request) (rest : List Input) (i : Instr),
    s.outOfReset = true → s.pending = .request r :: rest → decode r = .ok i → step s = exec i { s with pending := rest }

/-- What a step does with every other input, and with none (R230, U4, R82); construction has statements of its own. The
inputs' form is the model's choice (notes/assumptions/3.md, 4.md, 6.md, 18.md). -/
def Obligations.StepTakesOtherInputs : Prop :=
  (∀ s : State, s.pending = [] → step s = .next s) ∧
  (∀ (s : State) (f : Option Nat) (rest : List Input), s.pending = .txSpace f :: rest →
    step s = .next { s with tx := { s.tx with free := f }, pending := rest }) ∧
  (∀ (s : State) (r : Request) (rest : List Input) (e : DecodeError), s.pending = .request r :: rest →
    decode r = .error e → step s = .refused (refusalOf e))

/-- The invariant holds right after reset (R25, R33, R34). -/
def Obligations.ResetMeetsInvariant : Prop := State.reset.Inv

/-- Every step keeps (I-E1), (I-E2), (I-D1), (I-C1) and the range of the diagnostics (R25, R33, R34, R205). -/
def Obligations.StepKeepsInvariant : Prop :=
  ∀ s t : State, s.Inv → step s = .next t → t.Inv

/-- R231 (1), (I-D2): only device reset clears `dec.last_valid`, and only it or CH.POP empties the channel. -/
def Obligations.OnlyDeviceResetClearsLatch : Prop :=
  ∀ s t : State, step s = .next t →
    (s.dec.lastValid = true → t.dec.lastValid = false → ∃ rest, s.pending = .deviceReset :: rest) ∧
    (s.ch ≠ [] → t.ch = [] →
      (∃ rest, s.pending = .deviceReset :: rest) ∨ (∃ r rest, s.pending = .request r :: rest ∧ decode r = .ok .chPop))

/-! ### Encodings -/

/-- Decode and encode agree on every operation with every operand; the request's one code port is the model's choice
(notes/assumptions/1.md). -/
def Obligations.DecodeEncodeRoundTrip : Prop := ∀ i : Instr, decode (encode i) = .ok i

/-- An operation has one code word, and its own ports decode to it again. -/
def Obligations.DecodedOperationFixesCode : Prop :=
  ∀ (r : Request) (i : Instr), decode r = .ok i →
    (encode i).code = r.code ∧ decode { r with ports := (encode i).ports } = .ok i

/-- R80, R72: the fourteen words of spec/opcode_table.json, written out, decode to their rows, operand ports zero. -/
def Obligations.TableWordsDecode : Prop :=
  decodeTableWord 8 0b0001 = some (.encEncode 0 0) ∧ decodeTableWord 8 0b0010 = some .encReset ∧
  decodeTableWord 8 0b0011 = some (.decDecode []) ∧ decodeTableWord 8 0b0100 = some .decBegin ∧
  decodeTableWord 8 0b0101 = some (.decSym ⟨0, 0⟩) ∧ decodeTableWord 8 0b0110 = some .chPop ∧
  decodeTableWord 8 0b0111 = some (.cmpWin 0 0) ∧ decodeTableWord 8 0b1000 = some (.cmpClassify ⟨0, 0⟩ false) ∧
  decodeTableWord 8 0b1001 = some (.pmEnc 0 false) ∧ decodeTableWord 8 0b1010 = some (.pmDec 0) ∧
  decodeTableWord 32 0x01070244 = some .zero ∧ decodeTableWord 32 0x02AD009E = some .one ∧
  decodeTableWord 32 0x0AAA0820 = some .header ∧ decodeTableWord 32 0x03E803E8 = some .delay

/-- R82: select codes `0000` and `1011` to `1111` name no operation, whatever stands on the ports, and are refused. -/
def Obligations.UnusedSelectCodesRefused : Prop :=
  ∀ (s : State) (op : BitVec 4) (p : Ports) (rest : List Input),
    (op = 0 ∨ 11 ≤ op.toNat) → s.pending = .request ⟨op.setWidth 32, p⟩ :: rest →
      step s = .refused (.unusedSelectCode op)

/-! ### ENC -/

/-- R129: the frame is the header, four payloads and three delays between them; 68 symbols, 64 of them payload. -/
def Obligations.FrameHasSourceShape : Prop :=
  ∀ m : U16,
    frame config m =
      [⟨2730, 2080⟩] ++ payloadSymbols config m ++ [⟨1000, 1000⟩] ++ payloadSymbols config m ++ [⟨1000, 1000⟩] ++
        payloadSymbols config m ++ [⟨1000, 1000⟩] ++ payloadSymbols config m ∧
    (∀ j : Fin 16, (payloadSymbols config m)[j.val]? =
      some (if m.getLsbD (15 - j.val) then ⟨685, 158⟩ else ⟨263, 580⟩)) ∧
    (payloadSymbols config m).length = 16 ∧ (frame config m).length = 68 ∧
    (frame config m).count ⟨2730, 2080⟩ = 1 ∧ (frame config m).count ⟨1000, 1000⟩ = 3 ∧
    (frame config m).countP (fun x => x == ⟨685, 158⟩ || x == ⟨263, 580⟩) = 64

/-- R27: the frame read by position, for every parameter set. -/
def Obligations.FrameReadByPosition : Prop :=
  ∀ (c : Config) (m : U16) (p : Nat), p < 68 → (frame c m)[p]? = some (frameSymbolAt c m p)

/-- R26: `pos` is a bijection between the legal cursors and 0 to 67. -/
def Obligations.PositionIsBijection : Prop :=
  (∀ e : EncState, e.Inv → pos e.step e.bit < 68 ∧ cursorAt (pos e.step e.bit) = (e.step, e.bit)) ∧
  (∀ (p : Nat) (m : U16), p < 68 →
    EncState.Inv { step := (cursorAt p).1, bit := (cursorAt p).2, msg := m } ∧ pos (cursorAt p).1 (cursorAt p).2 = p)

/-- R124: `enc_emit1` returns the symbol at the cursor's position and advances the position by one. -/
def Obligations.EmitReturnsSymbolAtPosition : Prop :=
  ∀ (c : Config) (e : EncState), e.Inv →
    ∃ e' : EncState, encEmit1 c e = some (frameSymbolAt c e.msg (pos e.step e.bit), e') ∧
      pos e'.step e'.bit = pos e.step e.bit + 1 ∧ e'.msg = e.msg ∧ (e'.step = .payload3Done ∨ e'.Inv)

/-- R127: ENC.ENCODE in closed form, from every legal cursor, the whole next state. -/
def Obligations.EncodeClosedForm : Prop :=
  ∀ (s : State) (capacity : Nat) (m : U16), s.enc.Inv → (s.enc.step = .reset ∨ m = s.enc.msg) →
    let p := pos s.enc.step s.enc.bit
    let n := min capacity (68 - p)
    let symbols := ((frame config m).drop p).take n
    let complete : Bool := decide (68 - p ≤ capacity)
    s.tx.hasRoom n →
      exec (.encEncode capacity m) s = .next
        { s with
            enc := { step := if complete then .reset else (cursorAt (p + capacity)).1,
                     bit := if complete then 0 else (cursorAt (p + capacity)).2, msg := m },
            tx := { free := s.tx.free.map (· - n), syms := s.tx.syms ++ symbols },
            result := .encoded n (if complete then .frameComplete else .bufferFull) symbols, events := [] }

/-- R128: any split of a frame over calls gives the same symbols; BufferFull until the 68th symbol, then
FrameComplete. -/
def Obligations.EncodeIsResumable : Prop :=
  ∀ (s : State) (m : U16) (capacities : List Nat) (last : Nat),
    s.enc.step = .reset → s.enc.bit = 0 → s.tx.free = none →
    capacities.sum < 68 → 68 ≤ capacities.sum + last →
      (∀ k, k < capacities.length → ∃ u n syms,
        execAll (encodeCalls m (capacities.take (k + 1))) s = .next u ∧ u.result = .encoded n .bufferFull syms ∧
        u.tx.syms = s.tx.syms ++ (frame config m).take ((capacities.take (k + 1)).sum)) ∧
      ∃ t n syms, execAll (encodeCalls m (capacities ++ [last])) s = .next t ∧
        t.result = .encoded n .frameComplete syms ∧ t.tx.syms = s.tx.syms ++ frame config m ∧
        t.enc = { step := .reset, bit := 0, msg := m }

/-- R132, R220: a message that differs from the frame in flight is a caller error, whatever the capacity. -/
def Obligations.EncodeMessageChangeRefused : Prop :=
  ∀ (s : State) (capacity : Nat) (m : U16), s.enc.step ≠ .reset → s.enc.step ≠ .payload3Done → m ≠ s.enc.msg →
    exec (.encEncode capacity m) s = .refused .messageChangedMidFrame

/-- U4, R242: symbols beyond TXBUF's real space are refused; that an exaggerated capacity alone is not, is the model's
choice (notes/assumptions/17.md). -/
def Obligations.EncodeOverrunRefused : Prop :=
  ∀ (s : State) (capacity room : Nat) (m : U16), s.enc.Inv → (s.enc.step = .reset ∨ m = s.enc.msg) →
    s.tx.free = some room → room < min capacity (68 - pos s.enc.step s.enc.bit) →
      exec (.encEncode capacity m) s = .refused .txbufOverrun

/-- The model's choice (notes/assumptions/13.md, 14.md): ENC.ENCODE is refused at `Payload3Done`, DEC.SYM at
`dec.cnt = 16`, the two values that are held only inside an operation (R25, R29, U11). -/
def Obligations.ValuesHeldInsideOnlyAreRefusedAtStart : Prop :=
  (∀ (s : State) (capacity : Nat) (m : U16), s.enc.step = .payload3Done →
    exec (.encEncode capacity m) s = .refused .payload3DoneAtStart) ∧
  (∀ (s : State) (sym : OokSymbol), s.dec.cnt.val = 16 → exec (.decSym sym) s = .refused .cntSixteenAtStart)

/-- R130: ENC.RESET clears the cursor and nothing else; the message latch stays. -/
def Obligations.EncResetClearsCursor : Prop :=
  ∀ s : State, exec .encReset s = .next
    { s with enc := { step := .reset, bit := 0, msg := s.enc.msg }, result := .none, events := [] }

/-- After ENC.RESET at any cursor, the next frame is whole, whatever message it carries (R130, R129, R240). -/
def Obligations.FrameAfterResetIsWhole : Prop :=
  ∀ (s : State) (capacity : Nat) (m : U16), 68 ≤ capacity → s.tx.hasRoom 68 →
    ∃ t, execAll [.encReset, .encEncode capacity m] s = .next t ∧
      t.tx.syms = s.tx.syms ++ frame config m ∧ t.result = .encoded 68 .frameComplete (frame config m)

/-- R72: ENC emits exactly four different symbols and no other. -/
def Obligations.EncoderAlphabet : Prop :=
  let alphabet : List OokSymbol := [⟨263, 580⟩, ⟨685, 158⟩, ⟨2730, 2080⟩, ⟨1000, 1000⟩]
  (∀ (s t : State) (capacity : Nat) (m : U16), exec (.encEncode capacity m) s = .next t →
    ∃ out, t.tx.syms = s.tx.syms ++ out ∧ ∀ x ∈ out, x ∈ alphabet) ∧
  (∀ x ∈ alphabet, ∃ (capacity : Nat) (m : U16) (t : State),
    exec (.encEncode capacity m) State.reset = .next t ∧ x ∈ t.tx.syms)

/-- (I-E3), R25: the cursor never moves back but by completing a frame or by ENC.RESET. -/
def Obligations.EncoderCursorMonotone : Prop :=
  ∀ (i : Instr) (s t : State), s.enc.Inv → exec i s = .next t →
    pos s.enc.step s.enc.bit ≤ pos t.enc.step t.enc.bit ∨ i = .encReset ∨
      ∃ n syms, t.result = .encoded n .frameComplete syms

/-- R86, ENC.DRAIN: repeated calls of any positive capacity finish the frame in flight. -/
def Obligations.EncodeDrainCompletes : Prop :=
  ∀ (s : State) (n : Nat) (m : U16), 1 ≤ n → s.enc.Inv → (s.enc.step = .reset ∨ m = s.enc.msg) → s.tx.free = none →
    ∃ t k syms, execAll (encDrain s n m) s = .next t ∧ t.result = .encoded k .frameComplete syms ∧
      t.enc = { step := .reset, bit := 0, msg := m } ∧
      t.tx.syms = s.tx.syms ++ (frame config m).drop (pos s.enc.step s.enc.bit)

/-! ### CMP -/

/-- R102: CMP.WIN by its two bounds, nothing changed but the result. -/
def Obligations.WindowComparatorResult : Prop :=
  ∀ (s : State) (d : Duration) (t : Nat), exec (.cmpWin d t) s = .next
    { s with result := .window (decide ((t : Int) - 200 ≤ 2 * (d.toNat : Int) ∧ 2 * (d.toNat : Int) ≤ (t : Int) + 200)),
             events := [] }

/-- R105: the comparator bank as raw ranges. -/
def Obligations.ComparatorBankWindows : Prop :=
  ∀ sym : OokSymbol,
    (winZeroHigh config sym = true ↔ 32 ≤ sym.high.toNat ∧ sym.high.toNat ≤ 231) ∧
    (winZeroLow config sym = true ↔ 190 ≤ sym.low.toNat ∧ sym.low.toNat ≤ 390) ∧
    (winOneHigh config sym = true ↔ 243 ≤ sym.high.toNat ∧ sym.high.toNat ≤ 442) ∧
    (winOneLow config sym = true ↔ sym.low.toNat ≤ 179)

/-- R110: for a fixed template the window is one interval, never empty; `win(0, t)` holds exactly when
`t <= MARGIN`. -/
def Obligations.WindowIsOneInterval : Prop :=
  (∀ (d : Duration) (t : Nat), win config d t = true ↔ (t - 200 + 1) / 2 ≤ d.toNat ∧ d.toNat ≤ (t + 200) / 2) ∧
  (∀ t : Nat, t / 2 < 65536 → win config (BitVec.ofNat 16 (t / 2)) t = true) ∧
  (∀ t : Nat, win config 0 t = true ↔ t ≤ 200)

/-- R109: CMP.CLASSIFY by the full decision table, nothing changed but the result. -/
def Obligations.ClassifierDecisionTable : Prop :=
  ∀ (s : State) (sym : OokSymbol) (last : Bool),
    let h0 := 32 ≤ sym.high.toNat ∧ sym.high.toNat ≤ 231
    let h1 := 243 ≤ sym.high.toNat ∧ sym.high.toNat ≤ 442
    let l0 := 190 ≤ sym.low.toNat ∧ sym.low.toNat ≤ 390
    let l1 := sym.low.toNat ≤ 179
    exec (.cmpClassify sym last) s = .next
      { s with result := .classified
                 (if h0 ∧ (last = true ∨ l0) then .zero else if h1 ∧ (last = true ∨ l1) then .one else .invalid),
               events := [] }

/-! ### DEC -/

/-- R152: DEC.BEGIN clears the accumulator and its count, and touches neither the latch nor the channel. -/
def Obligations.DecBeginClearsRun : Prop :=
  ∀ s : State, exec .decBegin s = .next { s with dec := { s.dec with cnt := 0, acc := 0 }, result := .none, events := [] }

/-- R158: an invalid symbol abandons the run, with one diagnostic above the threshold. -/
def Obligations.InvalidSymbolAbandonsRun : Prop :=
  ∀ (s : State) (sym : OokSymbol), s.dec.cnt.val ≤ 15 → classify config sym (s.dec.cnt.val == 15) = .invalid →
    let ev : List Event := if 2 < s.dec.cnt.val then [.diag s.dec.cnt.val] else []
    exec (.decSym sym) s = .next
      { s with dec := { s.dec with cnt := 0 }, result := .none, events := ev, log := s.log ++ ev }

/-- R155: a valid symbol before the 16th writes accumulator bit `15 - cnt`, no other, and advances the count. -/
def Obligations.ValidSymbolWritesOneBit : Prop :=
  ∀ (s : State) (sym : OokSymbol) (b : Bool), s.dec.cnt.val < 15 →
    classify config sym false = (if b then .one else .zero) →
      ∃ (acc : U16) (cnt : Fin 17), cnt.val = s.dec.cnt.val + 1 ∧
        (∀ j, acc.getLsbD j = if j = 15 - s.dec.cnt.val then b else s.dec.acc.getLsbD j) ∧
        exec (.decSym sym) s = .next
          { s with dec := { s.dec with acc := acc, cnt := cnt }, result := .none, events := [] }

/-- R156: the 16th valid symbol completes the frame: push if new, write the latch in any case, restart the run. -/
def Obligations.SixteenthSymbolCompletesFrame : Prop :=
  ∀ (s : State) (sym : OokSymbol) (b : Bool), s.dec.cnt.val = 15 →
    classify config sym true = (if b then .one else .zero) →
      ∃ m : U16, (∀ j, m.getLsbD j = if j = 0 then b else s.dec.acc.getLsbD j) ∧
        ∃ (q : List U16) (ev : List Event),
          exec (.decSym sym) s = .next
            { s with dec := { cnt := 0, acc := m, last := m, lastValid := true }, ch := q, result := .none,
                     events := ev, log := s.log ++ ev } ∧
          ((s.dec.lastValid = false ∨ m ≠ s.dec.last) → s.ch.length < 4 → q = s.ch ++ [m] ∧ ev = [.emit m]) ∧
          ((s.dec.lastValid = false ∨ m ≠ s.dec.last) → 4 ≤ s.ch.length → q = s.ch ∧ ev = [.overflow m]) ∧
          (s.dec.lastValid = true → m = s.dec.last → q = s.ch ∧ ev = [])

/-- R151: DEC.DECODE is DEC.BEGIN followed by DEC.SYM of each symbol, and its event list theirs in order. -/
def Obligations.DecodeIsBeginThenSymbols : Prop :=
  ∀ (s : State) (batch : List OokSymbol), ∃ t u : State,
    exec (.decDecode batch) s = .next t ∧ execAll (decodeBySymbols batch) s = .next u ∧
      t.outOfReset = s.outOfReset ∧ u.outOfReset = s.outOfReset ∧ t.enc = s.enc ∧ u.enc = s.enc ∧ t.dec = u.dec ∧ t.ch = u.ch ∧ t.tx = s.tx ∧ u.tx = s.tx ∧
      t.log = u.log ∧ t.log = s.log ++ t.events ∧ t.draws = s.draws ∧ u.draws = s.draws ∧
      t.pending = s.pending ∧ u.pending = s.pending ∧ t.result = .none

/-- R162: the decoder on the encoder's own frame, from any state. -/
def Obligations.DecoderReadsOwnFrame : Prop :=
  ∀ (s : State) (m : U16), exec (loopBack (frame config m)) s = .next (frameDelivered s m)

/-- Timing tolerance: any sixteen captured symbols whose classes are the message's bits, the last one's low duration
exempt, are one frame of that message (R106, R154, R155, R156). -/
def Obligations.DecoderToleratesTimingNoise : Prop :=
  ∀ (s : State) (m : U16) (captured : List OokSymbol), captured.length = 16 →
    (∀ (j : Nat) (h : j < captured.length),
      classify config captured[j] (j == 15) = if m.getLsbD (15 - j) then .one else .zero) →
    exec (.decDecode captured) s = .next (frameDelivered s m)

/-- H8, R247, R66: ENC's output handed to DEC without the conversion decodes to nothing. -/
def Obligations.UnconvertedFrameDecodesToNothing : Prop :=
  ∀ (s : State) (m : U16), exec (.decDecode (frame config m)) s = .next
    { s with dec := { s.dec with cnt := 0, acc := 0 }, result := .none, events := [] }

/-- R161, R164, R159: a run of valid symbols of any length is a frame for each sixteen, of the message its symbols'
classes spell, delivered in order, and then a rest; the rest is silent at the end of the batch and gives one diagnostic
above the threshold if an invalid symbol follows. Every field of both next states. -/
def Obligations.LongRunsSplitIntoFrames : Prop :=
  ∀ (s : State) (run : List OokSymbol) (x : OokSymbol),
    (∀ (j : Nat) (h : j < run.length), classify config run[j] (j % 16 == 15) ≠ .invalid) →
    classify config x (run.length % 16 == 15) = .invalid →
      ∃ (messages : List U16) (acc : U16) (cnt : Fin 17) (ev : List Event),
        messages.length = run.length / 16 ∧ cnt.val = run.length % 16 ∧
        (∀ (j : Nat) (h : j < run.length) (h' : j / 16 < messages.length),
          classify config run[j] (j % 16 == 15) =
            if messages[j / 16].getLsbD (15 - j % 16) then .one else .zero) ∧
        (∀ (i : Nat) (h : 16 * messages.length + i < run.length),
          classify config run[16 * messages.length + i] false = if acc.getLsbD (15 - i) then .one else .zero) ∧
        (let frames := messages.foldl frameDelivered s
         let diag : List Event := if 2 < cnt.val then [.diag cnt.val] else []
         frames.log = s.log ++ ev ∧
         exec (.decDecode run) s = .next
           { frames with dec := { frames.dec with cnt := cnt, acc := acc }, result := .none, events := ev } ∧
         exec (.decDecode (run ++ [x])) s = .next
           { frames with dec := { frames.dec with cnt := 0, acc := acc }, result := .none, events := ev ++ diag,
                         log := frames.log ++ diag }) ∧
        (∀ m ∈ messages.getLast?, (messages.foldl frameDelivered s).dec.last = m ∧
          (messages.foldl frameDelivered s).dec.lastValid = true)

/-- R246, R55: a frame split over batches is lost: batches of fewer than 16 symbols, however many, deliver nothing and
leave the latch alone. -/
def Obligations.ShortBatchesDeliverNothing : Prop :=
  ∀ (s : State) (batches : List (List OokSymbol)), (∀ b ∈ batches, b.length < 16) →
    ∃ (t : State) (ev : List Event), execAll (batches.map .decDecode) s = .next t ∧
      t.ch = s.ch ∧ t.dec.last = s.dec.last ∧ t.dec.lastValid = s.dec.lastValid ∧ t.log = s.log ++ ev ∧
      ∀ e ∈ ev, ∃ n, e = .diag n ∧ 3 ≤ n ∧ n ≤ 14

/-- R160: one diagnostic per abandoned run, not per symbol. -/
def Obligations.OneDiagnosticPerAbandonedRun : Prop :=
  ∀ (s : State) (x : OokSymbol) (more : List OokSymbol), s.dec.cnt.val ≤ 15 →
    classify config x (s.dec.cnt.val == 15) = .invalid → (∀ y ∈ more, classify config y false = .invalid) →
      ∃ t, execAll ((x :: more).map .decSym) s = .next t ∧ t.dec = { s.dec with cnt := 0 } ∧ t.ch = s.ch ∧
        t.log = s.log ++ (if 2 < s.dec.cnt.val then [.diag s.dec.cnt.val] else [])

/-- R163: suppression is against the immediately preceding value alone, in one batch or across batches. -/
def Obligations.SuppressionIsAgainstPrecedingValue : Prop :=
  ∀ (s : State) (a b : U16), (s.dec.lastValid = false ∨ a ≠ s.dec.last) → a ≠ b → s.ch.length ≤ 1 →
    (∃ t, exec (.decDecode (capturedBits a ++ capturedBits a)) s = .next t ∧ t.events = [.emit a]) ∧
    (∃ t, execAll [.decDecode (capturedBits a), .decDecode (capturedBits a)] s = .next t ∧ t.events = [] ∧
      t.log = s.log ++ [.emit a]) ∧
    (∃ t, exec (.decDecode (capturedBits a ++ capturedBits b ++ capturedBits a)) s = .next t ∧
      t.events = [.emit a, .emit b, .emit a] ∧ t.ch = s.ch ++ [a, b, a])

/-- R30: stale accumulator bits are never observable. -/
def Obligations.StaleAccumulatorUnobservable : Prop :=
  ∀ (s : State) (stale : U16) (batch : List OokSymbol), s.dec.cnt = 0 →
    ∃ t u : State, execAll (batch.map .decSym) s = .next t ∧
      execAll (batch.map .decSym) { s with dec := { s.dec with acc := stale } } = .next u ∧
      u = { t with dec := { t.dec with acc := u.dec.acc } }

/-- R155: the shift accumulator and the positional one are the same decoder to an observer. -/
def Obligations.ShiftAccumulatorEquivalent : Prop :=
  ∀ (d : DecState) (q : List U16) (stale : U16) (batch : List OokSymbol), d.cnt = 0 →
    let a := decSymbols config d q batch
    let b := decSymbolsShift config { d with acc := stale } q batch
    b.events = a.events ∧ b.ch = a.ch ∧ b.dec.cnt = a.dec.cnt ∧ b.dec.last = a.dec.last ∧
      b.dec.lastValid = a.dec.lastValid

/-- R203: exactly one `Emit(m)` for each message that enters the channel, in order, by the decoder's operations. -/
def Obligations.EmitReportsEachDelivery : Prop :=
  ∀ (i : Instr) (s t : State), agentOf i = .dec → exec i s = .next t → t.ch = s.ch ++ emitted t.events

/-- R24, R31, U10: an unspecified register is not read: `enc.msg` at `Reset`, `dec.last` while the latch is empty. -/
def Obligations.UnspecifiedRegistersAreNotRead : Prop :=
  (∀ (s : State) (x m : U16) (capacity : Nat), s.enc.step = .reset →
    exec (.encEncode capacity m) { s with enc := { s.enc with msg := x } } = exec (.encEncode capacity m) s) ∧
  (∀ (s : State) (x : U16) (batch : List OokSymbol), s.dec.lastValid = false →
    ∃ t u : State, exec (.decDecode batch) s = .next t ∧
      exec (.decDecode batch) { s with dec := { s.dec with last := x } } = .next u ∧
      u = { t with dec := { t.dec with last := u.dec.last } } ∧
      (t.dec.lastValid = true → u.dec.last = t.dec.last))

/-! ### CH -/

/-- R182: CH.POP returns and removes the oldest message; on an empty channel `none`, and nothing changes. -/
def Obligations.PopReturnsOldest : Prop :=
  (∀ (s : State) (m : U16) (q : List U16), s.ch = m :: q →
    exec .chPop s = .next { s with ch := q, result := .popped (some m), events := [] }) ∧
  (∀ s : State, s.ch = [] → exec .chPop s = .next { s with result := .popped none, events := [] })

/-- R184: whatever runs, messages leave the channel in the order they entered, none lost and none made up. -/
def Obligations.ChannelIsFifo : Prop :=
  ∀ (ops : List Instr) (s t : State), execAll ops s = .next t →
    ∃ ev : List Event, t.log = s.log ++ ev ∧ s.ch ++ emitted ev = poppedBy ops s ++ t.ch

/-- R183, R244: a message that met a full channel is lost for good, though the channel has room when it comes again. -/
def Obligations.OverflowedMessageIsLost : Prop :=
  ∀ (s : State) (m : U16), (s.dec.lastValid = false ∨ m ≠ s.dec.last) → 4 ≤ s.ch.length →
    ∃ t, execAll [loopBack (frame config m), .chPop, loopBack (frame config m)] s = .next t ∧
      t.log = s.log ++ [.overflow m] ∧ t.ch = s.ch.drop 1 ∧ t.dec.last = m

/-- R86, CH.DRAIN: pops until `none` return everything pending, in order, and leave the channel empty. -/
def Obligations.ChannelDrainEmpties : Prop :=
  ∀ s : State, ∃ t, execAll (chDrain s) s = .next t ∧ t.ch = [] ∧ t.result = .popped none ∧
    poppedBy (chDrain s) s = s.ch

/-! ### PM -/

/-- R191: PM.ENC's code for a supported channel, its refusal of any other. -/
def Obligations.PayloadEncodeResult : Prop :=
  (∀ (s : State) (channel : Byte) (sel : BitVec 2) (on : Bool), config.selector channel = some sel →
    exec (.pmEnc channel on) s = .next
      { s with result := .code (((if on then 1#16 else 0#16) <<< 15) ||| (sel.setWidth 16 <<< 10) ||| 0x00AA#16),
               events := [] }) ∧
  (∀ (s : State) (channel : Byte) (on : Bool), config.selector channel = none →
    exec (.pmEnc channel on) s = .refused (.unsupportedChannel channel))

/-- R193: PM.DEC's checks and its result; InvalidCode is a result, the operation always completes. -/
def Obligations.PayloadDecodeResult : Prop :=
  ∀ (s : State) (m : U16), ∃ r : PayloadResult,
    exec (.pmDec m) s = .next { s with result := .payload r, events := [] } ∧
    (m.extractLsb' 0 8 ≠ 0xAA#8 → r = .invalidCode) ∧
    (m.extractLsb' 8 8 &&& 0x73#8 ≠ 0#8 → r = .invalidCode) ∧
    (config.channelOf (m.extractLsb' 10 2) = none → r = .invalidCode) ∧
    (∀ channel, m.extractLsb' 0 8 = 0xAA#8 → m.extractLsb' 8 8 &&& 0x73#8 = 0#8 →
      config.channelOf (m.extractLsb' 10 2) = some channel → r = .pair channel (m.getLsbD 15))

/-- R194: with the one-entry table exactly two of the 65536 codes decode. -/
def Obligations.ExactlyTwoCodesDecode : Prop :=
  ∀ m : U16,
    (pmDecode config m = .pair 0x65 true ↔ m = 0x8CAA) ∧ (pmDecode config m = .pair 0x65 false ↔ m = 0x0CAA) ∧
    (m ≠ 0x8CAA → m ≠ 0x0CAA → pmDecode config m = .invalidCode)

/-- R194: the round trip both ways, whatever the second channel is (D20), the table injective (R192). -/
def Obligations.PayloadRoundTrip : Prop :=
  ∀ second : Option (Byte × BitVec 2),
    let c : Config := { config with pmChannel2 := second }
    c.wellFormed = true →
      (∀ (channel : Byte) (on : Bool) (m : U16), pmEncode c channel on = some m → pmDecode c m = .pair channel on) ∧
      (∀ (channel : Byte) (on : Bool) (m : U16), pmDecode c m = .pair channel on → pmEncode c channel on = some m)

/-! ### The symbol words -/

/-- The model's choice (notes/assumptions/5.md): a symbol word appends its symbol to TXBUF, within its real space. -/
def Obligations.SymbolWordsAppend : Prop :=
  ∀ (s : State) (i : Instr) (sym : OokSymbol),
    (i, sym) ∈ [(Instr.zero, OokSymbol.mk 263 580), (.one, ⟨685, 158⟩), (.header, ⟨2730, 2080⟩), (.delay, ⟨1000, 1000⟩)] →
    (s.tx.free ≠ some 0 → exec i s = .next
      { s with tx := { free := s.tx.free.map (· - 1), syms := s.tx.syms ++ [sym] }, result := .none, events := [] }) ∧
    (s.tx.free = some 0 → exec i s = .refused .txbufOverrun)

/-! ### The whole machine -/

/-- R20: each agent's operations leave the other agents' state alone, and none but DEC's has events. To which agent CMP's
operations and the symbol words belong is the model's choice (notes/assumptions/31.md). -/
def Obligations.AgentsOwnTheirState : Prop :=
  ∀ (i : Instr) (s t : State), exec i s = .next t →
    (agentOf i ≠ .enc → t.enc = s.enc) ∧ (agentOf i ≠ .dec → t.dec = s.dec) ∧
    (agentOf i ≠ .dec → agentOf i ≠ .consumer → t.ch = s.ch) ∧
    (agentOf i ≠ .enc → agentOf i ≠ .emission → t.tx = s.tx) ∧
    (agentOf i ≠ .dec → t.events = [] ∧ t.log = s.log) ∧ t.log = s.log ++ t.events ∧
    t.draws = s.draws ∧ t.pending = s.pending ∧ t.outOfReset = s.outOfReset

/-- R61: an ENC operation commutes with any operation of DEC, the consumer or the application: the same block and
history, and each operation's own outputs the same, in either order. To which agent CMP's operations and the symbol
words belong is the model's choice (notes/assumptions/31.md). -/
def Obligations.EncoderCommutesWithOthers : Prop :=
  ∀ (i j : Instr) (s a t : State), agentOf i = .enc → agentOf j ≠ .enc → agentOf j ≠ .emission →
    exec i s = .next a → exec j a = .next t →
      ∃ b u : State, exec j s = .next b ∧ exec i b = .next u ∧ u.block = t.block ∧ u.log = t.log ∧
        u.result = a.result ∧ u.events = a.events ∧ b.result = t.result ∧ b.events = t.events

/-- R38, R206: no result, event or flag is sticky: what an operation does depends on the block's state alone. -/
def Obligations.OutputsAreNotState : Prop :=
  ∀ (i : Instr) (s s' t : State), s.block = s'.block → exec i s = .next t →
    ∃ t', exec i s' = .next t' ∧ t'.block = t.block ∧ t'.result = t.result ∧ t'.events = t.events

/-- The source's scenario for every message and every split of the transmission (R66, R128): encode, capture what
reached TXBUF, decode. R162's three outcomes: one `Emit` if the message is new and the channel has room, one `Overflow`
if it is new and the channel is full, no event if the latch already holds it. -/
def Obligations.EncodeThenDecodeDelivers : Prop :=
  ∀ (s : State) (m : U16) (capacities : List Nat) (last : Nat),
    s.enc.step = .reset → s.enc.bit = 0 → s.tx.free = none →
    capacities.sum < 68 → 68 ≤ capacities.sum + last →
      ∃ a b : State, execAll (encodeCalls m (capacities ++ [last])) s = .next a ∧
        exec (loopBack (a.tx.syms.drop s.tx.syms.length)) a = .next b ∧
        b.dec = { cnt := 0, acc := m, last := m, lastValid := true } ∧
        ((s.dec.lastValid = false ∨ m ≠ s.dec.last) → s.ch.length < 4 → b.ch = s.ch ++ [m] ∧ b.events = [.emit m]) ∧
        ((s.dec.lastValid = false ∨ m ≠ s.dec.last) → 4 ≤ s.ch.length → b.ch = s.ch ∧ b.events = [.overflow m]) ∧
        (s.dec.lastValid = true → m = s.dec.last → b.ch = s.ch ∧ b.events = [])

/-! ### Startup -/

/-- R208, R200, X8 of R202: construction is settled at startup. While the block is held in reset a failed construction is
the machine's fault, a success brings it out of reset and changes nothing else, and a request is refused; out of reset a
report on construction is refused. The form of the reports is the model's choice (notes/assumptions/26.md). -/
def Obligations.ConstructionSettledAtStartup : Prop :=
  ∀ (s : State) (rest : List Input),
    (s.outOfReset = false → s.pending = .constructionFailure :: rest → step s = .fault .constructionFailure) ∧
    (s.outOfReset = false → s.pending = .constructionSuccess :: rest →
      step s = .next { s with outOfReset := true, pending := rest }) ∧
    (∀ (r : Request) (i : Instr), s.outOfReset = false → s.pending = .request r :: rest → decode r = .ok i →
      step s = .refused .notOutOfReset) ∧
    (s.outOfReset = true → s.pending = .constructionFailure :: rest ∨ s.pending = .constructionSuccess :: rest →
      step s = .refused .constructionIsOver)

/-- R200, R208, R133: the block after reset is out of reset (the launch premise, notes/assumptions/26.md), stays out of it, and no run of it, however long and whatever its inputs, faults;
of any block, a fault is a failed construction reported before the block is out of reset. -/
def Obligations.BlockOutOfResetNeverFaults : Prop :=
  State.reset.outOfReset = true ∧
  (∀ s t : State, step s = .next t → s.outOfReset = true → t.outOfReset = true) ∧
  (∀ (s : State) (k : Nat) (f : Fault), s.outOfReset = true → core.run k s ≠ .fault f) ∧
  (∀ (s : State) (f : Fault), step s = .fault f →
    s.outOfReset = false ∧ f = .constructionFailure ∧ ∃ rest, s.pending = .constructionFailure :: rest)
end

