-- ==== Sys2Proof/Laws/Params.lean ====
section
/-! SUPPORT. The machine's parameters, one lemma per parameter a rule reads (00_scope.md R9), so that no proof unfolds
`config`. -/

namespace Sys2Proof.Machine

@[simp] theorem config_zeroHigh : config.zeroHigh = 263 := rfl
@[simp] theorem config_zeroLow : config.zeroLow = 580 := rfl
@[simp] theorem config_oneHigh : config.oneHigh = 685 := rfl
@[simp] theorem config_oneLow : config.oneLow = 158 := rfl
@[simp] theorem config_headerHigh : config.headerHigh = 2730 := rfl
@[simp] theorem config_headerLow : config.headerLow = 2080 := rfl
@[simp] theorem config_delayHigh : config.delayHigh = 1000 := rfl
@[simp] theorem config_delayLow : config.delayLow = 1000 := rfl
@[simp] theorem config_margin : config.margin = 200 := rfl
@[simp] theorem config_tickFactor : config.tickFactor = 2 := rfl
@[simp] theorem config_diagThreshold : config.diagThreshold = 2 := rfl
@[simp] theorem config_chCap : config.chCap = 4 := rfl
@[simp] theorem config_chPolicy : config.chPolicy = .dropNewest := rfl
@[simp] theorem config_payloadMsbFirst : config.payloadMsbFirst = true := rfl
@[simp] theorem config_pmLowByte : config.pmLowByte = 0xAA := rfl
@[simp] theorem config_pmOnBit : config.pmOnBit = 15 := rfl
@[simp] theorem config_pmSelHi : config.pmSelHi = 11 := rfl
@[simp] theorem config_pmSelLo : config.pmSelLo = 10 := rfl
@[simp] theorem config_pmFixedMask : config.pmFixedMask = 0x73 := rfl
@[simp] theorem config_pmFixedValue : config.pmFixedValue = 0 := rfl
@[simp] theorem config_pmChannels : config.pmChannels = [(0x65, 3)] := rfl
@[simp] theorem config_pmChannel2 : config.pmChannel2 = none := rfl
@[simp] theorem config_latchPerBatch : config.latchPerBatch = false := rfl
@[simp] theorem config_decLastReset : config.decLastReset = none := rfl

@[simp] theorem config_zero : config.zero = ⟨263, 580⟩ := rfl
@[simp] theorem config_one : config.one = ⟨685, 158⟩ := rfl
@[simp] theorem config_header : config.header = ⟨2730, 2080⟩ := rfl
@[simp] theorem config_delay : config.delay = ⟨1000, 1000⟩ := rfl
@[simp] theorem config_pmTable : config.pmTable = [(0x65, 3)] := rfl

end Sys2Proof.Machine
end

