-- ==== Sys2Proof/Laws/Comparators.lean ====
section
/-! SUPPORT. What the comparators decide, said once over the naturals (40_timing_comparators.md R102, R104, R106). -/

namespace Sys2Proof.Machine

/-- The window on this machine without subtraction: a negative lower bound is met by every duration (R104). -/
theorem win_iff (d : Duration) (t : Nat) :
    win config d t = true ↔ t ≤ 2 * d.toNat + 200 ∧ 2 * d.toNat ≤ t + 200 := by
  have h2 : (config.tickFactor : Int) = (2 : Int) := rfl
  have h200 : (config.margin : Int) = (200 : Int) := rfl
  simp only [win, Bool.and_eq_true, decide_eq_true_eq, h2, h200]
  omega

/-- When a symbol is a zero (R106). -/
theorem classify_eq_zero {c : Config} {sym : OokSymbol} {last : Bool} :
    classify c sym last = .zero ↔ winZeroHigh c sym = true ∧ (last = true ∨ winZeroLow c sym = true) := by
  unfold classify
  split
  · rename_i h; simpa using h
  · rename_i h
    constructor
    · intro h'; split at h' <;> cases h'
    · intro h'; exact absurd (by simpa using h') h

end Sys2Proof.Machine
end

