-- ==== Sys2Proof/Laws/Decode.lean ====
section
/-! SUPPORT. The listing word of a symbol, packed and unpacked (30_encoding.md R71). -/

namespace Sys2Proof

@[simp] theorem unpackSymbol_packSymbol (s : OokSymbol) : unpackSymbol (packSymbol s) = s := by
  obtain ⟨h, l⟩ := s
  simp only [unpackSymbol, packSymbol, OokSymbol.mk.injEq]
  constructor
  · ext i hi
    have := BitVec.getLsbD_append (x := h) (y := l) (i := 16 + i)
    simp at this
    simpa [BitVec.getElem_extractLsb', BitVec.getLsbD_eq_getElem hi] using this
  · ext i hi
    have := BitVec.getLsbD_append (x := h) (y := l) (i := i)
    simp [hi] at this
    simpa [BitVec.getElem_extractLsb', BitVec.getLsbD_eq_getElem hi] using this

end Sys2Proof
end

