-- ==== Sys2Proof/Laws/State.lean ====
section
/-! SUPPORT. One lemma per field per update of the machine's state, so that no later proof unfolds a record update. -/

namespace Sys2Proof.Machine

section finish
variable (s : State) (r : Result) (ev : List Event)

@[simp] theorem State.finish_enc : (s.finish r ev).enc = s.enc := rfl
@[simp] theorem State.finish_dec : (s.finish r ev).dec = s.dec := rfl
@[simp] theorem State.finish_ch : (s.finish r ev).ch = s.ch := rfl
@[simp] theorem State.finish_tx : (s.finish r ev).tx = s.tx := rfl
@[simp] theorem State.finish_outOfReset : (s.finish r ev).outOfReset = s.outOfReset := rfl
@[simp] theorem State.finish_result : (s.finish r ev).result = r := rfl
@[simp] theorem State.finish_events : (s.finish r ev).events = ev := rfl
@[simp] theorem State.finish_log : (s.finish r ev).log = s.log ++ ev := rfl
@[simp] theorem State.finish_draws : (s.finish r ev).draws = s.draws := rfl
@[simp] theorem State.finish_pending : (s.finish r ev).pending = s.pending := rfl

end finish

section afterDec
variable (s : State) (r : DecRun)

@[simp] theorem State.afterDec_enc : (s.afterDec r).enc = s.enc := rfl
@[simp] theorem State.afterDec_dec : (s.afterDec r).dec = r.dec := rfl
@[simp] theorem State.afterDec_ch : (s.afterDec r).ch = r.ch := rfl
@[simp] theorem State.afterDec_tx : (s.afterDec r).tx = s.tx := rfl
@[simp] theorem State.afterDec_outOfReset : (s.afterDec r).outOfReset = s.outOfReset := rfl
@[simp] theorem State.afterDec_result : (s.afterDec r).result = .none := rfl
@[simp] theorem State.afterDec_events : (s.afterDec r).events = r.events := rfl
@[simp] theorem State.afterDec_log : (s.afterDec r).log = s.log ++ r.events := rfl
@[simp] theorem State.afterDec_draws : (s.afterDec r).draws = s.draws := rfl
@[simp] theorem State.afterDec_pending : (s.afterDec r).pending = s.pending := rfl

end afterDec

section deviceReset
variable (c : Config) (s : State)

@[simp] theorem deviceReset_enc : (deviceReset c s).enc = encAfterReset s.draws := rfl
@[simp] theorem deviceReset_dec : (deviceReset c s).dec = decAfterReset c (s.draws + 1) := rfl
@[simp] theorem deviceReset_ch : (deviceReset c s).ch = [] := rfl
@[simp] theorem deviceReset_tx : (deviceReset c s).tx = s.tx := rfl
@[simp] theorem deviceReset_outOfReset : (deviceReset c s).outOfReset = s.outOfReset := rfl
@[simp] theorem deviceReset_result : (deviceReset c s).result = .none := rfl
@[simp] theorem deviceReset_events : (deviceReset c s).events = [] := rfl
@[simp] theorem deviceReset_log : (deviceReset c s).log = s.log := rfl
@[simp] theorem deviceReset_draws : (deviceReset c s).draws = s.draws + 2 := rfl
@[simp] theorem deviceReset_pending : (deviceReset c s).pending = s.pending := rfl

end deviceReset

section presentFirst
variable (r : Request) (s : State)

@[simp] theorem presentFirst_enc : (presentFirst r s).enc = s.enc := rfl
@[simp] theorem presentFirst_dec : (presentFirst r s).dec = s.dec := rfl
@[simp] theorem presentFirst_ch : (presentFirst r s).ch = s.ch := rfl
@[simp] theorem presentFirst_tx : (presentFirst r s).tx = s.tx := rfl
@[simp] theorem presentFirst_outOfReset : (presentFirst r s).outOfReset = true := rfl
@[simp] theorem presentFirst_pending : (presentFirst r s).pending = .request r :: s.pending := rfl

end presentFirst

section startup
variable (i : Instr) (b : Bool) (s : State)

@[simp] theorem admitOperation_of_out (h : s.outOfReset = true) : admitOperation i s = .operation i s := by
  simp [admitOperation, h]
@[simp] theorem admitOperation_of_held (h : s.outOfReset = false) :
    admitOperation i s = .rejected .notOutOfReset := by simp [admitOperation, h]
@[simp] theorem endConstruction_of_out (h : s.outOfReset = true) :
    endConstruction b s = .rejected .constructionIsOver := by simp [endConstruction, h]
@[simp] theorem endConstruction_true (h : s.outOfReset = false) :
    endConstruction true s = .event { s with outOfReset := true } := by simp [endConstruction, h]
@[simp] theorem endConstruction_false (h : s.outOfReset = false) :
    endConstruction false s = .failed .constructionFailure := by simp [endConstruction, h]

end startup

section afterReset
variable (n : Nat)

@[simp] theorem encAfterReset_step : (encAfterReset n).step = .reset := rfl
@[simp] theorem encAfterReset_bit : (encAfterReset n).bit = 0 := rfl
@[simp] theorem decAfterReset_cnt (c : Config) : (decAfterReset c n).cnt = 0 := by unfold decAfterReset; split <;> rfl
@[simp] theorem decAfterReset_acc (c : Config) : (decAfterReset c n).acc = 0 := by unfold decAfterReset; split <;> rfl

end afterReset

section decBegin
variable (c : Config) (d : DecState)

@[simp] theorem decBegin_cnt : (decBegin c d).cnt = 0 := rfl
@[simp] theorem decBegin_acc : (decBegin c d).acc = 0 := rfl
@[simp] theorem decBegin_last : (decBegin c d).last = d.last := rfl
@[simp] theorem decBegin_lastValid : (decBegin c d).lastValid = (d.lastValid && !c.latchPerBatch) := rfl

end decBegin

end Sys2Proof.Machine
end

