-- ==== Sys2Proof/Laws/Ops.lean ====
section
/-! SUPPORT. What each shared store operation can do, said once: TxAppend, ChPush, ChPop. -/

namespace Sys2Proof.Machine

/-- `TxAppend` (R50): one symbol at the end, one place less of any known space. -/
theorem txAppend_eq_some {t t' : TxBuf} {sym : OokSymbol} :
    txAppend t sym = some t' ↔
      t.free ≠ some 0 ∧ t'.syms = t.syms ++ [sym] ∧ t'.free = t.free.map (· - 1) := by
  obtain ⟨free, syms⟩ := t
  obtain ⟨free', syms'⟩ := t'
  rcases free with _ | _ | n <;> simp [txAppend, and_comm, eq_comm]

theorem TxBuf.hasRoom_of_none {t : TxBuf} (h : t.free = none) (n : Nat) : t.hasRoom n := by simp [TxBuf.hasRoom, h]

/-- `TxAppend` of a list where there is room: the symbols in order, that much less of any known space. -/
theorem txAppendAll_of_room (t : TxBuf) (l : List OokSymbol) (h : t.hasRoom l.length) :
    txAppendAll t l = some { free := t.free.map (· - l.length), syms := t.syms ++ l } := by
  induction l generalizing t with
  | nil => obtain ⟨_ | f, syms⟩ := t <;> simp [txAppendAll]
  | cons sym ss ih =>
    obtain ⟨free, syms⟩ := t
    rcases free with _ | _ | f
    · simp [txAppendAll, txAppend, ih { free := none, syms := syms ++ [sym] } (TxBuf.hasRoom_of_none rfl _)]
    · simpa using h 0 rfl
    · have hf : ss.length + 1 ≤ f + 1 := h _ rfl
      have : (TxBuf.mk (some f) (syms ++ [sym])).hasRoom ss.length := by rintro g ⟨⟩; omega
      simp [txAppendAll, txAppend, ih _ this]

/-- `TxAppend` of a list beyond the real space does not happen (U4). -/
theorem txAppendAll_of_no_room (t : TxBuf) (l : List OokSymbol) (f : Nat) (hf : t.free = some f) (h : f < l.length) :
    txAppendAll t l = none := by
  induction l generalizing t f with
  | nil => simp at h
  | cons sym ss ih =>
    obtain ⟨free, syms⟩ := t
    obtain rfl : free = some f := hf
    cases f with
    | zero => simp [txAppendAll, txAppend]
    | succ f => simpa [txAppendAll, txAppend] using ih _ f rfl (by simpa using h)

/-- All that `TxAppend` of a list can answer. -/
theorem txAppendAll_eq_some {t t' : TxBuf} {l : List OokSymbol} (h : txAppendAll t l = some t') :
    t.hasRoom l.length ∧ t' = { free := t.free.map (· - l.length), syms := t.syms ++ l } := by
  by_cases hr : t.hasRoom l.length
  · exact ⟨hr, by rw [txAppendAll_of_room t l hr] at h; exact (Option.some.inj h).symm⟩
  · obtain ⟨f, hf, hlt⟩ : ∃ f, t.free = some f ∧ f < l.length := by simpa [TxBuf.hasRoom] using hr
    rw [txAppendAll_of_no_room t l f hf hlt] at h
    cases h

/-- `ChPush` with this machine's policy (R181). -/
theorem chPush_cases (q : List U16) (m : U16) :
    (q.length < 4 ∧ chPush config q m = (q ++ [m], .accepted)) ∨ (4 ≤ q.length ∧ chPush config q m = (q, .dropped)) := by
  by_cases h : q.length < 4
  · exact .inl ⟨h, by simp [chPush, config, h]⟩
  · exact .inr ⟨by omega, by simp [chPush, config, h]⟩

/-- Whatever the policy, a push keeps the channel within its capacity (I-C1). -/
theorem chPush_length (c : Config) (q : List U16) (m : U16) (h : q.length ≤ c.chCap) :
    (chPush c q m).1.length ≤ c.chCap := by
  unfold chPush
  split
  · simp only [List.length_append, List.length_singleton]; omega
  · split
    · exact h
    · simpa using h

/-- `ChPop` splits the queue at its oldest message (R182). -/
theorem chPop_split (q : List U16) : (chPop q).1.toList ++ (chPop q).2 = q := by cases q <;> rfl

end Sys2Proof.Machine
end

