-- ==== Sys2Proof/Laws/Decoder.lean ====
section
/-! SUPPORT. What one DEC.SYM can do, said once, and how batches compose (42_symbol_decoder.md R153 to R158). -/

namespace Sys2Proof.Machine

/-- The bit a valid classification stands for (R73). -/
def Classification.bit? : Classification → Option Bool
  | .zero => some false
  | .one => some true
  | .invalid => none

/-- One DEC.SYM by its classification: abandon, or accept the bit (R153). -/
theorem decSymbol_eq (c : Config) (d : DecState) (q : List U16) (sym : OokSymbol) :
    decSymbol c d q sym =
      match (classify c sym (d.cnt.val == 15)).bit? with
      | none => decAbandon c d q
      | some b => decAccept c d q b := by
  unfold decSymbol
  cases classify c sym (d.cnt.val == 15) <;> rfl

/-- Accepting a bit before the 16th (R155). -/
theorem decAccept_of_lt (c : Config) (d : DecState) (q : List U16) (b : Bool) (h : d.cnt.val < 15) :
    decAccept c d q b =
      { dec := { d with acc := placeBit c d.acc d.cnt.val b, cnt := ⟨d.cnt.val + 1, by omega⟩ }, ch := q,
        events := [] } := by
  have h' : d.cnt.val + 1 < 16 := by omega
  simp [decAccept, h']

/-- Accepting the 16th bit completes the frame (R156). -/
theorem decAccept_of_last (c : Config) (d : DecState) (q : List U16) (b : Bool) (h : ¬ d.cnt.val < 15) :
    decAccept c d q b = decComplete c { d with acc := placeBit c d.acc d.cnt.val b } q := by
  have h' : ¬ d.cnt.val + 1 < 16 := by omega
  simp [decAccept, h']

/-- Everything the frame validator can do on this machine (R156, R181). -/
theorem decComplete_cases (d : DecState) (q : List U16) :
    (isNew d d.acc = true ∧ q.length < 4 ∧
      decComplete config d q =
        { dec := { d with last := d.acc, lastValid := true, cnt := 0 }, ch := q ++ [d.acc], events := [.emit d.acc] }) ∨
    (isNew d d.acc = true ∧ 4 ≤ q.length ∧
      decComplete config d q =
        { dec := { d with last := d.acc, lastValid := true, cnt := 0 }, ch := q, events := [.overflow d.acc] }) ∨
    (isNew d d.acc = false ∧
      decComplete config d q =
        { dec := { d with last := d.acc, lastValid := true, cnt := 0 }, ch := q, events := [] }) := by
  by_cases hn : isNew d d.acc = true
  · rcases chPush_cases q d.acc with ⟨hl, hp⟩ | ⟨hl, hp⟩
    · exact .inl ⟨hn, hl, by simp [decComplete, hn, hp]⟩
    · exact .inr (.inl ⟨hn, hl, by simp [decComplete, hn, hp]⟩)
  · have hn' : isNew d d.acc = false := by simpa using hn
    exact .inr (.inr ⟨hn', by simp [decComplete, hn']⟩)

@[simp] theorem decSymbols_nil (c : Config) (d : DecState) (q : List U16) :
    decSymbols c d q [] = { dec := d, ch := q, events := [] } := rfl

theorem decSymbols_cons (c : Config) (d : DecState) (q : List U16) (sym : OokSymbol) (ss : List OokSymbol) :
    decSymbols c d q (sym :: ss) =
      { decSymbols c (decSymbol c d q sym).dec (decSymbol c d q sym).ch ss with
        events := (decSymbol c d q sym).events ++
          (decSymbols c (decSymbol c d q sym).dec (decSymbol c d q sym).ch ss).events } := rfl

/-- A batch in two parts (R60, R164). -/
theorem decSymbols_append (c : Config) (d : DecState) (q : List U16) (as bs : List OokSymbol) :
    decSymbols c d q (as ++ bs) =
      { decSymbols c (decSymbols c d q as).dec (decSymbols c d q as).ch bs with
        events := (decSymbols c d q as).events ++
          (decSymbols c (decSymbols c d q as).dec (decSymbols c d q as).ch bs).events } := by
  induction as generalizing d q with
  | nil => simp
  | cons a as ih => simp [decSymbols_cons, ih, List.append_assoc]

/-- The messages reported as delivered, over a concatenation. -/
@[simp] theorem emitted_append (as bs : List Event) : emitted (as ++ bs) = emitted as ++ emitted bs := by
  induction as with
  | nil => rfl
  | cons a as ih => cases a <;> simp [emitted, ih]

/-- A bit written by `setBit`, and every other bit (R155). -/
theorem getLsbD_setBit (v : U16) (i j : Nat) (b : Bool) (hi : i < 16) :
    (setBit v i b).getLsbD j = if j = i then b else v.getLsbD j := by
  unfold setBit
  by_cases hj : j < 16
  · by_cases hji : j = i
    · subst hji
      cases b <;> simp [hj]
    · have hne : ¬ (j - i = 0 ∧ i ≤ j) := by omega
      by_cases hlt : j < i
      · cases b <;> simp [hj, hji, hlt]
      · have : j - i ≠ 0 := by omega
        cases b <;> simp [hj, hji, hlt, this]
  · have h1 : j ≠ i := by omega
    have h2 : v.getLsbD j = false := BitVec.getLsbD_of_ge v j (by omega)
    cases b <;> simp [hj, h1, h2]

end Sys2Proof.Machine
end

