-- ==== Sys2Proof/Laws/Delivery.lean ====
section
/-! SUPPORT. What delivering one completed frame, and several in order, changes and leaves alone (42_symbol_decoder.md
R156, R162, R164). -/

namespace Sys2Proof.Machine

section frameDelivered
variable (s : State) (m : U16)

@[simp] theorem frameDelivered_enc : (frameDelivered s m).enc = s.enc := rfl
@[simp] theorem frameDelivered_dec :
    (frameDelivered s m).dec = { cnt := 0, acc := m, last := m, lastValid := true } := rfl
@[simp] theorem frameDelivered_tx : (frameDelivered s m).tx = s.tx := rfl
@[simp] theorem frameDelivered_outOfReset : (frameDelivered s m).outOfReset = s.outOfReset := rfl
@[simp] theorem frameDelivered_result : (frameDelivered s m).result = .none := rfl
@[simp] theorem frameDelivered_log : (frameDelivered s m).log = s.log ++ (frameDelivered s m).events := rfl
@[simp] theorem frameDelivered_draws : (frameDelivered s m).draws = s.draws := rfl
@[simp] theorem frameDelivered_pending : (frameDelivered s m).pending = s.pending := rfl

end frameDelivered

/-- Frames delivered in order leave ENC, TXBUF, the stage of startup, the counter and the waiting inputs alone. -/
theorem foldl_frameDelivered_frame (messages : List U16) (s : State) :
    (messages.foldl frameDelivered s).enc = s.enc ∧ (messages.foldl frameDelivered s).tx = s.tx ∧
      (messages.foldl frameDelivered s).outOfReset = s.outOfReset ∧
      (messages.foldl frameDelivered s).draws = s.draws ∧ (messages.foldl frameDelivered s).pending = s.pending := by
  induction messages generalizing s with
  | nil => exact ⟨rfl, rfl, rfl, rfl, rfl⟩
  | cons m messages ih => exact ih (frameDelivered s m)

end Sys2Proof.Machine
end

