-- ==== Sys2Proof/Laws/Encoder.lean ====
section
/-! SUPPORT. What ENC's pieces can do, said once (41_frame_encoder.md R122 to R126). -/

namespace Sys2Proof.Machine

/-- `enc_emit1` is defined exactly off `Payload3Done` (R124). -/
theorem encEmit1_eq_none {c : Config} {e : EncState} : encEmit1 c e = none ↔ e.step = .payload3Done := by
  obtain ⟨step, bit, msg⟩ := e
  cases step <;> simp [encEmit1, EncStep.succ, EncStep.kind]

/-- `enc_emit1` never writes `enc.msg`. -/
theorem encEmit1_msg {c : Config} {e e' : EncState} {sym : OokSymbol} (h : encEmit1 c e = some (sym, e')) :
    e'.msg = e.msg := by
  obtain ⟨step, bit, msg⟩ := e
  cases step <;> simp [encEmit1, EncStep.succ, EncStep.kind, emitPayload] at h <;>
    obtain ⟨-, rfl⟩ := h <;> first | rfl | (split <;> rfl)

/-- The loop at a frame's end, whatever the space (R126). -/
theorem encLoop_done (c : Config) (n : Nat) (e : EncState) (h : e.step = .payload3Done) :
    encLoop c n e = { symbols := [], status := .frameComplete, enc := { e with step := .reset } } := by
  have := (encEmit1_eq_none (c := c)).2 h
  cases n <;> simp [encLoop, this]

/-- The loop without space, the frame unfinished (R125). -/
theorem encLoop_zero (c : Config) (e : EncState) (h : e.step ≠ .payload3Done) :
    encLoop c 0 e = { symbols := [], status := .bufferFull, enc := e } := by
  have : encEmit1 c e ≠ none := fun hn => h (encEmit1_eq_none.1 hn)
  cases hs : encEmit1 c e with
  | none => exact absurd hs this
  | some p => simp [encLoop, hs]

/-- One turn of the loop (R125). -/
theorem encLoop_succ (c : Config) (n : Nat) {e e' : EncState} {sym : OokSymbol} (h : encEmit1 c e = some (sym, e')) :
    encLoop c (n + 1) e = { encLoop c n e' with symbols := sym :: (encLoop c n e').symbols } := by
  simp [encLoop, h]

/-- All that the first step of ENC.ENCODE can answer (R122, R132). -/
theorem encStart_eq_ok {e e' : EncState} {m : U16} :
    encStart e m = .ok e' ↔
      e.step ≠ .payload3Done ∧ (e.step = .reset ∨ m = e.msg) ∧ e' = { e with msg := m } := by
  obtain ⟨step, bit, msg⟩ := e
  by_cases hm : m = msg <;> cases step <;> simp [encStart, hm, eq_comm]

/-- All that ENC.ENCODE can answer as a next state. -/
theorem execEncEncode_eq_next {n : Nat} {m : U16} {s t : State} (h : execEncEncode n m s = .next t) :
    s.enc.step ≠ .payload3Done ∧ (s.enc.step = .reset ∨ m = s.enc.msg) ∧
      ∃ run, run = encLoop config n { s.enc with msg := m } ∧ s.tx.hasRoom run.symbols.length ∧
        t = State.finish
          { s with enc := run.enc, tx := { free := s.tx.free.map (· - run.symbols.length), syms := s.tx.syms ++ run.symbols } }
          (.encoded run.symbols.length run.status run.symbols) [] := by
  unfold execEncEncode at h
  split at h
  · cases h
  · rename_i e he
    obtain ⟨h1, h2, rfl⟩ := encStart_eq_ok.1 he
    unfold encDeliver at h
    split at h
    · cases h
    · rename_i tx htx
      obtain ⟨hr, rfl⟩ := txAppendAll_eq_some htx
      cases h
      exact ⟨h1, h2, _, rfl, hr, rfl⟩

/-- All that a symbol word can answer as a next state. -/
theorem appendSymbol_eq_next {sym : OokSymbol} {s t : State} (h : appendSymbol sym s = .next t) :
    ∃ tx, txAppend s.tx sym = some tx ∧ t = State.finish { s with tx := tx } .none [] := by
  unfold appendSymbol at h
  split at h
  · cases h
  · rename_i tx htx
    cases h
    exact ⟨tx, htx, rfl⟩

end Sys2Proof.Machine
end

