-- ==== Sys2Proof/Laws/Exec.lean ====
section
/-! SUPPORT. Everything an operation, and a step, can answer as a next state, said once: later proofs take cases on these
and never unfold `exec` or `step`. -/

namespace Sys2Proof.Machine

/-- The next states of `exec`, by the shape of what they change. -/
inductive ExecNext (s : State) : Instr → State → Prop where
  /-- ENC.ENCODE (R125): the loop's symbols reach TXBUF -/
  | encode (capacity : Nat) (message : U16) (run : EncRun) :
      s.enc.step ≠ .payload3Done → (s.enc.step = .reset ∨ message = s.enc.msg) →
      run = encLoop config capacity { s.enc with msg := message } → s.tx.hasRoom run.symbols.length →
      ExecNext s (.encEncode capacity message)
        (State.finish
          { s with enc := run.enc, tx := { free := s.tx.free.map (· - run.symbols.length), syms := s.tx.syms ++ run.symbols } }
          (.encoded run.symbols.length run.status run.symbols) [])
  /-- ENC.RESET (R130) -/
  | encReset : ExecNext s .encReset (State.finish { s with enc := { s.enc with step := .reset, bit := 0 } } .none [])
  /-- DEC.DECODE (R151) -/
  | decode (batch : List OokSymbol) :
      ExecNext s (.decDecode batch) (s.afterDec (decSymbols config (decBegin config s.dec) s.ch batch))
  /-- DEC.BEGIN (R152) -/
  | decBegin : ExecNext s .decBegin (State.finish { s with dec := Machine.decBegin config s.dec } .none [])
  /-- DEC.SYM (R153) -/
  | decSym (sym : OokSymbol) : s.dec.cnt.val ≠ 16 →
      ExecNext s (.decSym sym) (s.afterDec (decSymbol config s.dec s.ch sym))
  /-- CH.POP (R182) -/
  | pop : ExecNext s .chPop (State.finish { s with ch := (Machine.chPop s.ch).2 } (.popped (Machine.chPop s.ch).1) [])
  /-- a pure operation of CMP or PM (R112): the same result in every state -/
  | pure (i : Instr) (r : Result) :
      (∀ s', exec i s' = .next (s'.finish r [])) → (∀ m, r ≠ .popped m) → ExecNext s i (s.finish r [])
  /-- a symbol word: its symbol reaches TXBUF -/
  | symbolWord (i : Instr) (sym : OokSymbol) (tx : TxBuf) :
      (∀ s', exec i s' = appendSymbol sym s') → txAppend s.tx sym = some tx →
      ExecNext s i (State.finish { s with tx := tx } .none [])

theorem exec_symbolWord {i : Instr} {sym : OokSymbol} {s t : State} (hi : ∀ s', exec i s' = appendSymbol sym s')
    (h : exec i s = .next t) : ExecNext s i t := by
  rw [hi] at h
  obtain ⟨tx, htx, rfl⟩ := appendSymbol_eq_next h
  exact .symbolWord i sym tx hi htx

/-- Whatever `exec` answers as a next state is one of these. -/
theorem exec_cases {i : Instr} {s t : State} (h : exec i s = .next t) : ExecNext s i t := by
  cases i with
  | encEncode capacity message =>
    obtain ⟨h1, h2, run, hrun, hroom, rfl⟩ := execEncEncode_eq_next h
    exact .encode capacity message run h1 h2 hrun hroom
  | encReset => cases h; exact .encReset
  | decDecode batch => cases h; exact .decode batch
  | decBegin => cases h; exact .decBegin
  | decSym sym =>
    simp only [exec, execDecSym] at h
    split at h
    · cases h
    · rename_i hn; cases h; exact .decSym sym hn
  | chPop => cases h; exact .pop
  | cmpWin d t => cases h; exact .pure _ _ (fun _ => rfl) (by simp)
  | cmpClassify sym last => cases h; exact .pure _ _ (fun _ => rfl) (by simp)
  | pmDec message => cases h; exact .pure _ _ (fun _ => rfl) (by simp)
  | pmEnc channel on =>
    simp only [exec, execPmEnc] at h
    split at h
    · cases h
    · rename_i m hm; cases h; exact .pure _ _ (fun s' => by simp [exec, execPmEnc, hm]) (by simp)
  | zero => exact exec_symbolWord (fun _ => rfl) h
  | one => exact exec_symbolWord (fun _ => rfl) h
  | header => exact exec_symbolWord (fun _ => rfl) h
  | delay => exact exec_symbolWord (fun _ => rfl) h

/-- Every operation leaves the stage of startup alone. -/
theorem exec_outOfReset {i : Instr} {s t : State} (h : exec i s = .next t) : t.outOfReset = s.outOfReset := by
  cases exec_cases h <;> rfl

/-- No operation faults (R200, R208). -/
theorem exec_ne_fault (i : Instr) (s : State) (f : Fault) : exec i s ≠ .fault f := by
  intro h
  have word : ∀ sym, appendSymbol sym s ≠ .fault f := by
    intro sym h; unfold appendSymbol callerError at h; split at h <;> cases h
  cases i with
  | encEncode capacity message =>
    simp only [exec, execEncEncode, encDeliver, callerError] at h
    split at h
    · cases h
    · split at h <;> cases h
  | decSym sym => simp only [exec, execDecSym] at h; split at h <;> cases h
  | pmEnc channel on => simp only [exec, execPmEnc, callerError] at h; split at h <;> cases h
  | zero => exact word _ h
  | one => exact word _ h
  | header => exact word _ h
  | delay => exact word _ h
  | encReset | decDecode | decBegin | chPop | cmpWin | cmpClassify | pmDec => cases h

/-- Whatever `step` answers as a next state: nothing waiting, an event of the environment, or an operation's answer. -/
theorem step_cases {s t : State} (h : step s = .next t) :
    (s.pending = [] ∧ t = s) ∨
    (∃ free rest, s.pending = .txSpace free :: rest ∧ t = { s with tx := { s.tx with free := free }, pending := rest }) ∨
    (∃ rest, s.pending = .deviceReset :: rest ∧ t = deviceReset config { s with pending := rest }) ∨
    (∃ rest, s.pending = .constructionSuccess :: rest ∧ s.outOfReset = false ∧
      t = { s with outOfReset := true, pending := rest }) ∨
    (∃ r rest i, s.pending = .request r :: rest ∧ s.outOfReset = true ∧ Sys2Proof.decode r = .ok i ∧
      exec i { s with pending := rest } = .next t) := by
  unfold step nextInput at h
  cases hp : s.pending with
  | nil => rw [hp] at h; cases h; exact .inl ⟨rfl, rfl⟩
  | cons input rest =>
    rw [hp] at h
    cases input with
    | txSpace free => cases h; exact .inr (.inl ⟨free, rest, rfl, rfl⟩)
    | deviceReset => cases h; exact .inr (.inr (.inl ⟨rest, rfl, rfl⟩))
    | constructionFailure =>
      simp only [takeInput, endConstruction] at h
      cases ho : s.outOfReset <;> simp [ho] at h
    | constructionSuccess =>
      simp only [takeInput, endConstruction] at h
      cases ho : s.outOfReset <;> simp [ho] at h
      exact .inr (.inr (.inr (.inl ⟨rest, rfl, rfl, h.symm⟩)))
    | request r =>
      simp only [takeInput] at h
      cases hd : Sys2Proof.decode r with
      | error e => rw [hd] at h; cases h
      | ok i =>
        rw [hd] at h
        cases ho : s.outOfReset <;> simp [admitOperation, ho] at h
        exact .inr (.inr (.inr (.inr ⟨r, rest, i, rfl, rfl, hd, h⟩)))

/-- The only fault of a step: startup reports a failed construction while the block is still in reset (R208). -/
theorem step_fault_cases {s : State} {f : Fault} (h : step s = .fault f) :
    s.outOfReset = false ∧ ∃ rest, s.pending = .constructionFailure :: rest := by
  unfold step nextInput at h
  cases hp : s.pending with
  | nil => rw [hp] at h; cases h
  | cons input rest =>
    rw [hp] at h
    cases input with
    | txSpace free => cases h
    | deviceReset => cases h
    | constructionFailure =>
      cases ho : s.outOfReset
      · exact ⟨rfl, rest, rfl⟩
      · simp [takeInput, endConstruction, ho] at h
    | constructionSuccess => cases ho : s.outOfReset <;> simp [takeInput, endConstruction, ho] at h
    | request r =>
      simp only [takeInput] at h
      cases hd : Sys2Proof.decode r with
      | error e => rw [hd] at h; cases h
      | ok i =>
        rw [hd] at h
        cases ho : s.outOfReset <;> simp [admitOperation, ho] at h
        exact absurd h (exec_ne_fault i _ f)

end Sys2Proof.Machine
end

