-- ==== Sys2Proof/Laws/PerInstr.lean ====
section
/-! SUPPORT. Families of statements made per operation (LAWS.json), one lemma per constructor of `Instr`. -/

namespace Sys2Proof.Laws

/-- The code word alone chooses the row: with any ports at all, an operation's code word decodes to an operation of the
same row (30_encoding.md R70: "no mode changes how anything is decoded"). -/
def CodeNamesRow.Statement (i : Instr) : Prop :=
  ∀ p : Ports, ∃ j : Instr, decode ⟨(encode i).code, p⟩ = .ok j ∧ j.mnemonic = i.mnemonic

theorem CodeNamesRow.encEncode (capacity : Nat) (message : U16) :
    CodeNamesRow.Statement (.encEncode capacity message) := fun _ => ⟨_, rfl, rfl⟩
theorem CodeNamesRow.encReset : CodeNamesRow.Statement .encReset := fun _ => ⟨_, rfl, rfl⟩
theorem CodeNamesRow.decDecode (batch : List OokSymbol) : CodeNamesRow.Statement (.decDecode batch) :=
  fun _ => ⟨_, rfl, rfl⟩
theorem CodeNamesRow.decBegin : CodeNamesRow.Statement .decBegin := fun _ => ⟨_, rfl, rfl⟩
theorem CodeNamesRow.decSym (sym : OokSymbol) : CodeNamesRow.Statement (.decSym sym) := fun _ => ⟨_, rfl, rfl⟩
theorem CodeNamesRow.chPop : CodeNamesRow.Statement .chPop := fun _ => ⟨_, rfl, rfl⟩
theorem CodeNamesRow.cmpWin (d : Duration) (t : Nat) : CodeNamesRow.Statement (.cmpWin d t) := fun _ => ⟨_, rfl, rfl⟩
theorem CodeNamesRow.cmpClassify (sym : OokSymbol) (last : Bool) : CodeNamesRow.Statement (.cmpClassify sym last) :=
  fun _ => ⟨_, rfl, rfl⟩
theorem CodeNamesRow.pmEnc (channel : Byte) (on : Bool) : CodeNamesRow.Statement (.pmEnc channel on) :=
  fun _ => ⟨_, rfl, rfl⟩
theorem CodeNamesRow.pmDec (message : U16) : CodeNamesRow.Statement (.pmDec message) := fun _ => ⟨_, rfl, rfl⟩
theorem CodeNamesRow.zero : CodeNamesRow.Statement .zero := fun _ => ⟨_, rfl, rfl⟩
theorem CodeNamesRow.one : CodeNamesRow.Statement .one := fun _ => ⟨_, rfl, rfl⟩
theorem CodeNamesRow.header : CodeNamesRow.Statement .header := fun _ => ⟨_, rfl, rfl⟩
theorem CodeNamesRow.delay : CodeNamesRow.Statement .delay := fun _ => ⟨_, rfl, rfl⟩

end Sys2Proof.Laws
end

