-- ==== Sys2Proof/Tests/Slice0.lean ====
section
/-! SUPPORT. The model's own tests: ill-formed terms refused, the spec's words decoded, its test vectors (`V-…`, `P<n>` of
95_test_vectors.md, "Worked example" of a rule) on single operations, and for every statement with hypotheses a witness
that meets them. -/

namespace Sys2Proof.Tests

open Sys2Proof Sys2Proof.Machine

/-! ### Helpers -/

/-- The next state, if there is one. -/
def nextOf : Host.Outcome State Fault Refusal → Option State
  | .next s => some s
  | .fault _ => none
  | .refused _ => none

/-- The refusal, if there is one. -/
def refusalIn : Host.Outcome State Fault Refusal → Option Refusal
  | .next _ => none
  | .fault _ => none
  | .refused r => some r

/-- A state with ENC at a cursor. -/
def withEnc (step : EncStep) (bit : Fin 16) (msg : U16) : State :=
  { State.reset with enc := { step := step, bit := bit, msg := msg } }

/-- A state `(cnt, acc, last, last_valid, q)` in the vectors' notation. -/
def withDec (cnt : Fin 17) (acc last : U16) (lastValid : Bool) (q : List U16) : State :=
  { State.reset with dec := { cnt := cnt, acc := acc, last := last, lastValid := lastValid }, ch := q }

/-- A state whose TXBUF has room for `n` symbols. -/
def withRoom (n : Nat) : State := { State.reset with tx := { free := some n, syms := [] } }

/-- A state with inputs waiting. -/
def withPending (inputs : List Input) : State := { State.reset with pending := inputs }

/-- What a DEC operation leaves, as the vectors write it, with its events. -/
def decView (o : Host.Outcome State Fault Refusal) : Option (Nat × U16 × Bool × List U16 × List Event) :=
  (nextOf o).map (fun t => (t.dec.cnt.val, t.dec.acc, t.dec.lastValid, t.ch, t.events))

/-- What an ENC operation leaves, with its result. -/
def encView (o : Host.Outcome State Fault Refusal) : Option (EncState × Result) :=
  (nextOf o).map (fun t => (t.enc, t.result))

/-- The result alone. -/
def resultOf (o : Host.Outcome State Fault Refusal) : Option Result := (nextOf o).map (fun t => t.result)

/-- The raw-tick symbols of the vectors (R85). -/
def z : OokSymbol := ⟨131, 290⟩
def o : OokSymbol := ⟨342, 79⟩
def h : OokSymbol := ⟨1365, 1040⟩
def X : OokSymbol := ⟨10, 10⟩

/-- `bits(m)` of the vectors, written from R53 and R74. -/
def bits (m : U16) : List OokSymbol := (List.range 16).map (fun j => if m.getLsbD (15 - j) then o else z)

/-- A code word with every port zero. -/
def bare (code : BitVec 32) : Request := ⟨code, Ports.zero⟩

/-! ### Well-formedness: an ill-formed term for each check -/

theorem test_wf_refuses_unknown_channel : Instr.wellFormed config (.pmEnc 0x61 true) = false := by decide
theorem test_wf_accepts_known_channel : Instr.wellFormed config (.pmEnc 0x65 true) = true := by decide
theorem test_wf_default_config : Config.wellFormed config = true := by decide
theorem test_wf_refuses_msgW : Config.wellFormed { config with msgW := 8, frameSymbols := 36 } = false := by decide
theorem test_wf_refuses_durW : Config.wellFormed { config with durW := 12 } = false := by decide
theorem test_wf_refuses_repeats : Config.wellFormed { config with repeats := 3, frameSymbols := 52 } = false := by decide
theorem test_wf_refuses_delays : Config.wellFormed { config with delays := 4, frameSymbols := 69 } = false := by decide
theorem test_wf_refuses_frameSymbols : Config.wellFormed { config with frameSymbols := 67 } = false := by decide
theorem test_wf_refuses_pmOnBit : Config.wellFormed { config with pmOnBit := 14 } = false := by decide
theorem test_wf_refuses_pmSelHi : Config.wellFormed { config with pmSelHi := 12 } = false := by decide
theorem test_wf_refuses_pmSelLo : Config.wellFormed { config with pmSelLo := 9 } = false := by decide
theorem test_wf_refuses_pmFixedMask : Config.wellFormed { config with pmFixedMask := 0x72 } = false := by decide
theorem test_wf_refuses_pmFixedValue : Config.wellFormed { config with pmFixedValue := 0x80 } = false := by decide
theorem test_wf_refuses_same_identifier : Config.wellFormed { config with pmChannel2 := some (0x65, 1) } = false := by
  decide
theorem test_wf_refuses_same_selector : Config.wellFormed { config with pmChannel2 := some (0x66, 3) } = false := by
  decide

/-! ### Decoding: the words of R80 and R72, the operands of P1 and P5, written out -/

theorem test_codes_distinct : (codeTable.map (fun row => row.code)).Nodup := by decide

theorem test_decode_encEncode :
    decode ⟨0b0001, { Ports.zero with capacity := 0x44, message := 0x8CAA }⟩ = .ok (.encEncode 68 0x8CAA) := by rfl
theorem test_decode_encReset : decode (bare 0b0010) = .ok .encReset := by rfl
theorem test_decode_decDecode :
    decode ⟨0b0011, { Ports.zero with batch := [0x05550410, 0x0156004F, 0x00830122] }⟩ = .ok (.decDecode [h, o, z]) := by
  rfl
theorem test_decode_decBegin : decode (bare 0b0100) = .ok .decBegin := by rfl
theorem test_decode_decSym : decode ⟨0b0101, { Ports.zero with sym := 0x000A000A }⟩ = .ok (.decSym X) := by rfl
theorem test_decode_chPop : decode (bare 0b0110) = .ok .chPop := by rfl
theorem test_decode_cmpWin : decode ⟨0b0111, { Ports.zero with d := 0x00E7, t := 0x0107 }⟩ = .ok (.cmpWin 231 263) := by
  rfl
theorem test_decode_cmpClassify :
    decode ⟨0b1000, { Ports.zero with sym := 0x00F301F4, last := 1 }⟩ = .ok (.cmpClassify ⟨243, 500⟩ true) := by rfl
theorem test_decode_pmEnc : decode ⟨0b1001, { Ports.zero with channel := 0x65, on := 1 }⟩ = .ok (.pmEnc 0x65 true) := by
  rfl
theorem test_decode_pmDec : decode ⟨0b1010, { Ports.zero with message := 0x8CAA }⟩ = .ok (.pmDec 0x8CAA) := by rfl
theorem test_decode_zero : decode (bare 0x01070244) = .ok .zero := by rfl
theorem test_decode_one : decode (bare 0x02AD009E) = .ok .one := by rfl
theorem test_decode_header : decode (bare 0x0AAA0820) = .ok .header := by rfl
theorem test_decode_delay : decode (bare 0x03E803E8) = .ok .delay := by rfl
theorem test_decode_rejects_unused_codes :
    ∀ op : Fin 16, (op.val = 0 ∨ 11 ≤ op.val) → decodeTableWord 8 op.val = none := by decide
theorem test_decode_rejects_other_word : decode (bare 0x00830122) = .error (.unknownWord 0x00830122) := by rfl

/-- R78, R79: the numeric codes, `succ` an increment of them, and no value for codes 9 to 15 (R83). -/
theorem test_codes_of_values :
    (∀ c : BitVec 4, (EncStep.ofCode c).isSome = decide (c.toNat ≤ 8)) ∧
    EncStep.delay2Done.code = 7 ∧ Status.frameComplete.code = 1 ∧ Classification.invalid.code = 2 ∧
    PushResult.accepted.code = 1 ∧ (Event.diag 3).kindCode = 2 := by decide

/-! ### Single operations, expected values from 95_test_vectors.md -/

/-- R125's worked example. -/
theorem test_encEncode_worked_example :
    encView (exec (.encEncode 5 0x8CAA) State.reset) =
      some (⟨.headerDone, 4, 0x8CAA⟩,
        .encoded 5 .bufferFull [⟨2730, 2080⟩, ⟨685, 158⟩, ⟨263, 580⟩, ⟨263, 580⟩, ⟨263, 580⟩]) := by decide +kernel

/-- V-ENC-3: the exact fit of the last symbol. -/
theorem test_encEncode_exact_fit :
    encView (exec (.encEncode 1 0x1234) (withEnc .delay2Done 15 0x1234)) =
      some (⟨.reset, 0, 0x1234⟩, .encoded 1 .frameComplete [⟨263, 580⟩]) := by decide +kernel

/-- V-ENC-5. -/
theorem test_encReset_mid_payload :
    encView (exec .encReset (withEnc .headerDone 6 0x8CAA)) = some (⟨.reset, 0, 0x8CAA⟩, .none) := by decide

/-- V-DEC-14: a header in mid-run. -/
theorem test_decDecode_header_mid_run :
    decView (exec (.decDecode ([o, o, o, o, h] ++ bits 0xFFFF)) State.reset) =
      some (0, 0xFFFF, true, [0xFFFF], [.diag 4, .emit 0xFFFF]) := by decide +kernel

/-- V-DEC-10: overflow, the latch written all the same. -/
theorem test_decDecode_overflow :
    decView (exec (.decDecode (bits 1 ++ bits 2 ++ bits 3 ++ bits 4 ++ bits 5 ++ bits 5 ++ bits 6)) State.reset) =
      some (0, 6, true, [1, 2, 3, 4], [.emit 1, .emit 2, .emit 3, .emit 4, .overflow 5, .overflow 6]) := by
  decide +kernel

/-- V-DEC-17. -/
theorem test_decBegin :
    decView (exec .decBegin (withDec 7 0x1200 0x8CAA true [0x8CAA])) = some (0, 0, true, [0x8CAA], []) := by decide

/-- V-DEC-17: the 16th symbol, its low exempt. -/
theorem test_decSym_last_bit :
    decView (exec (.decSym ⟨131, 9999⟩) (withDec 15 0x8CAA 0 false [])) =
      some (0, 0x8CAA, true, [0x8CAA], [.emit 0x8CAA]) := by decide +kernel

/-- V-DEC-17: only bit 15 is written. -/
theorem test_decSym_first_bit :
    decView (exec (.decSym z) (withDec 0 0xFFFF 0 false [])) = some (1, 0x7FFF, false, [], []) := by decide +kernel

/-- R182's worked example. -/
theorem test_chPop_oldest :
    (nextOf (exec .chPop (withDec 0 0 0 false [0x8CAA, 0x0CAA]))).map (fun t => (t.result, t.ch)) =
      some (.popped (some 0x8CAA), [0x0CAA]) := by decide

/-- V-CH-1. -/
theorem test_chPop_empty : resultOf (exec .chPop State.reset) = some (.popped none) := by decide

/-- V-CMP-1: the negative lower bound. -/
theorem test_cmpWin_negative_bound : resultOf (exec (.cmpWin 0 158) State.reset) = some (.window true) := by decide

/-- V-L1-4: one tick beyond the upper bound. -/
theorem test_cmpWin_above : resultOf (exec (.cmpWin 301 400) State.reset) = some (.window false) := by decide

/-- V-CMP-2: the low duration exempt. -/
theorem test_cmpClassify_exempt :
    resultOf (exec (.cmpClassify ⟨442, 180⟩ true) State.reset) = some (.classified .one) := by decide

/-- V-CMP-2: the gap between the low windows. -/
theorem test_cmpClassify_low_gap :
    resultOf (exec (.cmpClassify ⟨131, 185⟩ false) State.reset) = some (.classified .invalid) := by decide

/-- V-PM-1. -/
theorem test_pmEnc_off : resultOf (exec (.pmEnc 0x65 false) State.reset) = some (.code 0x0CAA) := by decide

/-- V-PM-1: `PM.ENC 'a', 1` is a caller error. -/
theorem test_pmEnc_unsupported : refusalIn (exec (.pmEnc 0x61 true) State.reset) = some (.unsupportedChannel 0x61) := by
  decide

/-- V-PM-2. -/
theorem test_pmDec_on : resultOf (exec (.pmDec 0x8CAA) State.reset) = some (.payload (.pair 0x65 true)) := by decide

/-- V-PM-2: fixed bit `m[9]` set. -/
theorem test_pmDec_fixed_bit : resultOf (exec (.pmDec 0x8EAA) State.reset) = some (.payload .invalidCode) := by decide

/-- R72's pairs, appended. -/
theorem test_zero : (nextOf (exec .zero State.reset)).map (fun t => t.tx.syms) = some [⟨263, 580⟩] := by decide
theorem test_one : (nextOf (exec .one State.reset)).map (fun t => t.tx.syms) = some [⟨685, 158⟩] := by decide
theorem test_header : (nextOf (exec .header State.reset)).map (fun t => t.tx.syms) = some [⟨2730, 2080⟩] := by decide
theorem test_delay : (nextOf (exec .delay State.reset)).map (fun t => t.tx.syms) = some [⟨1000, 1000⟩] := by decide

/-- V-ENC-1, `0x8000` against `0x0001`: the bit order (D3). -/
theorem test_bit_order :
    (payloadSymbols config 0x8000)[0]? = some ⟨685, 158⟩ ∧ (payloadSymbols config 0x0001)[15]? = some ⟨685, 158⟩ := by
  decide

/-- R208, R200: a failed construction is fatal before any operation, and has no place after one. -/
theorem test_construction_failure_only_at_startup :
    step { State.heldInReset with pending := [.constructionFailure] } = .fault .constructionFailure ∧
      refusalIn (Host.Core.run core 2 (withPending [.request (bare 0b0110), .constructionFailure])) =
        some .constructionIsOver := ⟨rfl, by decide⟩

/-- A table word presented after reset is what the next step runs. -/
theorem test_step_runs_fetch_word :
    resultOf (step (State.reset.withFetchWord 8 0b0110)) = some (.popped none) := by decide

/-! ### Witnesses: each statement's hypotheses are met together -/

theorem witness_resetInv : State.reset.Inv :=
  ⟨⟨by decide, by decide⟩, by decide, by decide, by intro ev hev; cases hev⟩

theorem witness_DeviceResetReachesEverything :
    (withPending [.deviceReset, .txSpace none]).pending = .deviceReset :: [.txSpace none] := by rfl

theorem witness_StepRunsDecodedOperation :
    (withPending [.request (bare 0b0110)]).pending = .request (bare 0b0110) :: [] ∧
      (withPending [.request (bare 0b0110)]).outOfReset = true ∧ decode (bare 0b0110) = .ok .chPop := ⟨rfl, rfl, rfl⟩

theorem witness_StepTakesOtherInputs :
    State.reset.pending = [] ∧ (withPending [.txSpace (some 3)]).pending = .txSpace (some 3) :: [] ∧
      (withPending [.request (bare 0b1011)]).pending = .request (bare 0b1011) :: [] ∧
      decode (bare 0b1011) = .error (.unusedSelectCode 0b1011) := ⟨rfl, rfl, rfl, rfl⟩

theorem witness_StepKeepsInvariant : State.reset.Inv ∧ step State.reset = .next State.reset := ⟨witness_resetInv, rfl⟩

/-- The latch and a filled channel, cleared by device reset. -/
theorem witness_OnlyDeviceResetClearsLatch_reset :
    ∃ t, step { withDec 0 0 7 true [7] with pending := [.deviceReset] } = .next t ∧ t.dec.lastValid = false ∧ t.ch = [] :=
  ⟨_, rfl, rfl, rfl⟩

/-- A filled channel, emptied by CH.POP. -/
theorem witness_OnlyDeviceResetClearsLatch_pop :
    ∃ t, step { withDec 0 0 7 true [7] with pending := [.request (bare 0b0110)] } = .next t ∧ t.ch = [] :=
  ⟨_, rfl, rfl⟩

theorem witness_DecodedOperationFixesCode : decode (bare 0b1010) = .ok (.pmDec 0) := by rfl

theorem witness_UnusedSelectCodesRefused :
    ((0#4 : BitVec 4) = 0 ∨ 11 ≤ (0#4 : BitVec 4).toNat) ∧ (11#4 = 0 ∨ 11 ≤ (11#4).toNat) ∧
      (15#4 = 0 ∨ 11 ≤ (15#4).toNat) ∧
      (withPending [.request ⟨(15#4).setWidth 32, Ports.zero⟩]).pending = .request ⟨(15#4).setWidth 32, Ports.zero⟩ :: [] :=
  ⟨by decide, by decide, by decide, rfl⟩

theorem witness_FrameReadByPosition : 0 < 68 ∧ 67 < 68 := by decide

theorem encInv_resetCursor (m : U16) : EncState.Inv ⟨.reset, 0, m⟩ := ⟨by simp, by simp⟩
theorem encInv_lastCursor (m : U16) : EncState.Inv ⟨.delay2Done, 15, m⟩ := ⟨by simp, by simp [EncStep.kind]⟩

theorem witness_PositionIsBijection :
    EncState.Inv ⟨.reset, 0, 0⟩ ∧ EncState.Inv ⟨.delay2Done, 15, 0⟩ ∧ pos .reset 0 = 0 ∧ pos .delay2Done 15 = 67 :=
  ⟨encInv_resetCursor 0, encInv_lastCursor 0, rfl, rfl⟩

theorem witness_EmitReturnsSymbolAtPosition : EncState.Inv ⟨.delay2Done, 15, 0x8CAA⟩ := encInv_lastCursor _

/-- From reset, and mid-frame with exactly the room that is needed. -/
theorem witness_EncodeClosedForm :
    (State.reset.enc.Inv ∧ State.reset.enc.step = .reset ∧ State.reset.tx.hasRoom (min 68 (68 - 0))) ∧
      ((withEnc .delay2Done 15 5).enc.Inv ∧ (5 : U16) = (withEnc .delay2Done 15 5).enc.msg ∧
        TxBuf.hasRoom ⟨some 1, []⟩ (min 9 (68 - pos .delay2Done 15))) :=
  ⟨⟨encInv_resetCursor 0, rfl, by intro f hf; cases hf⟩, encInv_lastCursor 5, rfl, by intro f hf; cases hf; decide⟩

/-- V-ENC-2's capacities. -/
theorem witness_EncodeIsResumable :
    State.reset.enc.step = .reset ∧ State.reset.enc.bit = 0 ∧ State.reset.tx.free = none ∧
      [0, 1, 5, 20, 0, 30].sum < 68 ∧ 68 ≤ [0, 1, 5, 20, 0, 30].sum + 12 := by decide

theorem witness_EncodeMessageChangeRefused :
    (withEnc .headerDone 6 0x8CAA).enc.step ≠ .reset ∧ (withEnc .headerDone 6 0x8CAA).enc.step ≠ .payload3Done ∧
      (0x0CAA : U16) ≠ (withEnc .headerDone 6 0x8CAA).enc.msg := by decide

theorem witness_EncodeOverrunRefused :
    (withRoom 4).enc.Inv ∧ (withRoom 4).enc.step = .reset ∧ (withRoom 4).tx.free = some 4 ∧
      4 < min 5 (68 - pos (withRoom 4).enc.step (withRoom 4).enc.bit) :=
  ⟨encInv_resetCursor 0, rfl, rfl, by decide⟩

theorem witness_ValuesHeldInsideOnlyAreRefusedAtStart :
    (withEnc .payload3Done 0 0).enc.step = .payload3Done ∧ (withDec 16 0 0 false []).dec.cnt.val = 16 := by decide

theorem witness_FrameAfterResetIsWhole : 68 ≤ 68 ∧ (withRoom 68).tx.hasRoom 68 :=
  ⟨by decide, by intro f hf; cases hf; decide⟩

theorem witness_EncoderAlphabet : ∃ t, exec (.encEncode 19 0x8000) State.reset = .next t := ⟨_, rfl⟩

theorem witness_EncoderCursorMonotone : State.reset.enc.Inv ∧ ∃ t, exec (.encEncode 1 0) State.reset = .next t :=
  ⟨encInv_resetCursor 0, _, rfl⟩

theorem witness_EncodeDrainCompletes :
    1 ≤ 24 ∧ (withEnc .delay2Done 15 5).enc.Inv ∧ (5 : U16) = (withEnc .delay2Done 15 5).enc.msg ∧
      (withEnc .delay2Done 15 5).tx.free = none := ⟨by decide, encInv_lastCursor 5, rfl, rfl⟩

theorem witness_WindowIsOneInterval : 131071 / 2 < 65536 ∧ 158 / 2 < 65536 := by decide

/-- An invalid symbol at the 16th place, and one below the threshold. -/
theorem witness_InvalidSymbolAbandonsRun :
    ((withDec 15 0 0 false []).dec.cnt.val ≤ 15 ∧ classify config X (15 == 15) = .invalid) ∧
      ((withDec 2 0 0 false []).dec.cnt.val ≤ 15 ∧ classify config X (2 == 15) = .invalid) := by decide

theorem witness_ValidSymbolWritesOneBit :
    (withDec 14 0 0 false []).dec.cnt.val < 15 ∧ classify config o false = .one ∧ classify config z false = .zero := by
  decide

/-- Each clause: new with room, new with a full channel, a repeat. -/
theorem witness_SixteenthSymbolCompletesFrame :
    (withDec 15 0x8CAA 0 false []).dec.cnt.val = 15 ∧ classify config ⟨131, 9999⟩ true = .zero ∧
      (withDec 15 0x8CAA 0 false [1, 2, 3]).ch.length < 4 ∧ 4 ≤ (withDec 15 0x8CAA 0 false [1, 2, 3, 4]).ch.length ∧
      (withDec 15 0x8CAA 0x8CAA true []).dec.lastValid = true ∧
      (∀ j : Fin 16, (0x8CAA : U16).getLsbD j.val = if j.val = 0 then false else (0x8CAA : U16).getLsbD j.val) := by
  decide

/-- A noisy capture of `0x8000`: off-nominal durations, the last low out of every window. -/
def noisyCapture : List OokSymbol := ⟨243, 179⟩ :: List.replicate 14 ⟨231, 390⟩ ++ [⟨32, 9999⟩]

theorem witness_DecoderToleratesTimingNoise :
    noisyCapture.length = 16 ∧
      ∀ (j : Nat) (hj : j < noisyCapture.length),
        classify config noisyCapture[j] (j == 15) = if (0x8000 : U16).getLsbD (15 - j) then .one else .zero := by
  decide +kernel

/-- V-DEC-6b's run: 16 + 5 valid symbols. -/
def longRun : List OokSymbol := bits 0x1234 ++ [o, o, o, o, o]

theorem witness_LongRunsSplitIntoFrames :
    (∀ (j : Nat) (hj : j < longRun.length), classify config longRun[j] (j % 16 == 15) ≠ .invalid) ∧
      classify config X (longRun.length % 16 == 15) = .invalid := by decide +kernel

theorem witness_OneDiagnosticPerAbandonedRun :
    (withDec 3 0 0 false []).dec.cnt.val ≤ 15 ∧ classify config X (3 == 15) = .invalid ∧
      ∀ y ∈ [X, X], classify config y false = .invalid := by decide

theorem witness_ShortBatchesDeliverNothing : ∀ b ∈ [(bits 0x1234).take 7, (bits 0x1234).drop 7], b.length < 16 := by
  decide

theorem witness_SuppressionIsAgainstPrecedingValue :
    (withDec 0 0 0xAAAA false []).dec.lastValid = false ∧ (0xAAAA : U16) ≠ 0xBBBB ∧
      (withDec 0 0 0xAAAA false [1]).ch.length ≤ 1 := by decide

theorem witness_StaleAccumulatorUnobservable : (withDec 0 0xFFFF 0 false []).dec.cnt = 0 := by decide

theorem witness_ShiftAccumulatorEquivalent : (DecState.mk 0 0xFFFF 0 false).cnt = 0 := by decide

theorem witness_EmitReportsEachDelivery :
    agentOf (.decSym z) = .dec ∧ ∃ t, exec (.decSym z) (withDec 15 0 0 false []) = .next t := ⟨rfl, _, rfl⟩

theorem witness_UnspecifiedRegistersAreNotRead :
    State.reset.enc.step = .reset ∧ State.reset.dec.lastValid = false := by decide

theorem witness_PopReturnsOldest : (withDec 0 0 0 false [7]).ch = 7 :: [] ∧ State.reset.ch = [] := by decide

theorem witness_ChannelIsFifo :
    ∃ t, execAll [.chPop, .decDecode (bits 9), .chPop] (withDec 0 0 0 false [7]) = .next t := ⟨_, rfl⟩

theorem witness_OverflowedMessageIsLost :
    (withDec 0 0 4 true [1, 2, 3, 4]).dec.lastValid = true ∧ (0x0CAA : U16) ≠ (withDec 0 0 4 true [1, 2, 3, 4]).dec.last ∧
      4 ≤ (withDec 0 0 4 true [1, 2, 3, 4]).ch.length := by decide

theorem witness_PayloadEncodeResult : config.selector 0x65 = some 3 ∧ config.selector 0x61 = none := by decide

/-- One code for each clause: `0x8CAB`, `0x8DAA`, `0x88AA`, `0x8CAA` of V-PM-2. -/
theorem witness_PayloadDecodeResult :
    (0x8CAB : U16).extractLsb' 0 8 ≠ 0xAA#8 ∧ (0x8DAA : U16).extractLsb' 8 8 &&& 0x73#8 ≠ 0#8 ∧
      config.channelOf ((0x88AA : U16).extractLsb' 10 2) = none ∧
      (0x8CAA : U16).extractLsb' 0 8 = 0xAA#8 ∧ (0x8CAA : U16).extractLsb' 8 8 &&& 0x73#8 = 0#8 ∧
      config.channelOf ((0x8CAA : U16).extractLsb' 10 2) = some 0x65 := by decide

theorem witness_PayloadRoundTrip :
    Config.wellFormed { config with pmChannel2 := some (0x66, 2) } = true ∧
      pmEncode { config with pmChannel2 := some (0x66, 2) } 0x66 true = some 0x88AA ∧
      pmDecode { config with pmChannel2 := some (0x66, 2) } 0x88AA = .pair 0x66 true := by decide

theorem witness_SymbolWordsAppend :
    (Instr.header, OokSymbol.mk 2730 2080) ∈
        [(Instr.zero, OokSymbol.mk 263 580), (.one, ⟨685, 158⟩), (.header, ⟨2730, 2080⟩), (.delay, ⟨1000, 1000⟩)] ∧
      (withRoom 1).tx.free ≠ some 0 ∧ (withRoom 0).tx.free = some 0 := by decide

theorem witness_AgentsOwnTheirState : ∃ t, exec .chPop State.reset = .next t := ⟨_, rfl⟩

/-- An ENC operation before one of each other agent. -/
theorem witness_EncoderCommutesWithOthers :
    agentOf (.encEncode 5 0) = .enc ∧ agentOf (.decSym z) ≠ .enc ∧ agentOf (.decSym z) ≠ .emission ∧
      ∃ a t, exec (.encEncode 5 0) State.reset = .next a ∧ exec (.decSym z) a = .next t :=
  ⟨by decide, by decide, by decide, _, _, rfl, rfl⟩

/-- Two states of one block with different outputs and histories. -/
theorem witness_OutputsAreNotState :
    State.reset.block = ({ State.reset with result := .popped none, events := [.diag 3], log := [.diag 3] } : State).block ∧
      ∃ t, exec .chPop State.reset = .next t := ⟨rfl, _, rfl⟩

/-- Each outcome: new with room, new with a full channel, a repeat. -/
theorem witness_EncodeThenDecodeDelivers :
    State.reset.enc.step = .reset ∧ State.reset.enc.bit = 0 ∧ State.reset.tx.free = none ∧ [24, 24].sum < 68 ∧
      68 ≤ [24, 24].sum + 24 ∧
      ((withDec 0 0 4 true [1, 2, 3]).enc.step = .reset ∧ (5 : U16) ≠ (withDec 0 0 4 true [1, 2, 3]).dec.last ∧
        (withDec 0 0 4 true [1, 2, 3]).ch.length < 4) ∧
      ((withDec 0 0 4 true [1, 2, 3, 4]).enc.step = .reset ∧ (5 : U16) ≠ (withDec 0 0 4 true [1, 2, 3, 4]).dec.last ∧
        4 ≤ (withDec 0 0 4 true [1, 2, 3, 4]).ch.length) ∧
      ((withDec 0 0 5 true []).dec.lastValid = true ∧ (5 : U16) = (withDec 0 0 5 true []).dec.last) := by decide

/-- Each clause: failure, success and a request while held in reset, either report out of reset. -/
theorem witness_ConstructionSettledAtStartup :
    State.heldInReset.outOfReset = false ∧ State.reset.outOfReset = true ∧
      ({ State.heldInReset with pending := [.constructionFailure] } : State).pending = .constructionFailure :: [] ∧
      ({ State.heldInReset with pending := [.constructionSuccess] } : State).pending = .constructionSuccess :: [] ∧
      ({ State.heldInReset with pending := [.request (bare 0b0110)] } : State).pending = .request (bare 0b0110) :: [] ∧
      decode (bare 0b0110) = .ok .chPop ∧
      (withPending [.constructionFailure]).pending = .constructionFailure :: [] ∧
      (withPending [.constructionSuccess]).pending = .constructionSuccess :: [] :=
  ⟨rfl, rfl, rfl, rfl, rfl, rfl, rfl, rfl⟩

/-- A step out of reset, and a step that faults. -/
theorem witness_BlockOutOfResetNeverFaults :
    (step State.reset = .next State.reset ∧ State.reset.outOfReset = true) ∧
      step { State.heldInReset with pending := [.constructionFailure] } = .fault .constructionFailure := ⟨⟨rfl, rfl⟩, rfl⟩

end Sys2Proof.Tests
end

/-! ### What a step does with its oldest input, read forwards (R11, R215)

`step_cases` reads a step's answer backwards. These equations read it forwards: which input is taken, and what runs. -/

namespace Sys2Proof.Machine

/-- Inputs are taken in the order the environment put them (R61). -/
theorem nextInput_of_pending_cons {s : State} {input : Input} {rest : List Input} (h : s.pending = input :: rest) :
    nextInput s = takeInput input rest s := by
  simp only [nextInput, h]

/-- A request that decodes is left to the stage of startup, which admits its operation or not (R208). -/
theorem takeInput_request_of_decode_ok {r : Request} {i : Instr} (h : decode r = .ok i) (rest : List Input) (s : State) :
    takeInput (.request r) rest s = admitOperation i { s with pending := rest } := by
  simp only [takeInput, h]

/-- An admitted operation is one atomic transition (R11). -/
theorem step_of_nextInput_operation {s s' : State} {i : Instr} (h : nextInput s = .operation i s') :
    step s = exec i s' := by
  simp only [step, h]

/-- Settles O3: the oldest input is taken, decoded and admitted, each by its equation. -/
theorem stepRunsDecodedOperation : Obligations.StepRunsDecodedOperation := by
  intro s r rest i hout hpending hdecode
  apply step_of_nextInput_operation
  calc nextInput s
    _ = takeInput (.request r) rest s := nextInput_of_pending_cons hpending
    _ = admitOperation i { s with pending := rest } := takeInput_request_of_decode_ok hdecode rest s
    _ = .operation i { s with pending := rest } := admitOperation_of_out i _ hout

end Sys2Proof.Machine

/-! ### What ENC's loop leaves of the cursor (R25, R26, R124 to R126)

Inside one ENC.ENCODE the cursor passes through `Payload3Done`, so the loop keeps (I-E2) alone; (I-E1) is back when the
loop ends. -/

namespace Sys2Proof.Machine

/-- (I-E2) alone (R25): what stays true of the cursor inside ENC.ENCODE. -/
def EncState.BitLegal (e : EncState) : Prop := e.bit ≠ 0 → e.step.kind = .payload

theorem EncState.inv_iff {e : EncState} : e.Inv ↔ e.step ≠ .payload3Done ∧ e.BitLegal :=
  ⟨fun h => ⟨h.notDone, h.bitOnlyInPayload⟩, fun ⟨hstep, hbit⟩ => ⟨hstep, hbit⟩⟩

theorem EncState.bit_eq_zero {e : EncState} (h : e.BitLegal) (hkind : e.step.kind ≠ .payload) : e.bit = 0 :=
  of_not_not fun hbit => hkind (h hbit)

/-- The start of a frame is a legal cursor (R39, R130, R230). -/
theorem EncState.inv_of_reset {e : EncState} (hstep : e.step = .reset) (hbit : e.bit = 0) : e.Inv :=
  ⟨by simp [hstep], fun h => absurd hbit h⟩

/-- A header or a delay is one symbol, a payload sixteen (R26, R27). -/
theorem EncStep.base_succ {step next : EncStep} (h : step.succ = some next) :
    next.base = step.base + (if step.kind = .payload then 16 else 1) := by
  cases step <;> cases h <;> rfl

/-- Where `enc_emit1` puts a cursor with (I-E2) (R124): to the start of the next sub-step, or one payload bit on. -/
theorem encEmit1_cursor {c : Config} {e e' : EncState} {sym : OokSymbol} (hlegal : e.BitLegal)
    (h : encEmit1 c e = some (sym, e')) :
    (∃ next, e.step.succ = some next ∧ e' = { e with step := next, bit := 0 } ∧
      e.bit.val + 1 = if e.step.kind = .payload then 16 else 1) ∨
    (e.step.kind = .payload ∧ e' = { e with bit := e.bit + 1 } ∧ (e.bit + 1).val = e.bit.val + 1) := by
  unfold encEmit1 at h
  split at h
  · cases h
  · rename_i next hnext
    cases hkind : e.step.kind with
    | done => rw [hkind] at h; cases h
    | header | delay =>
      rw [hkind] at h
      have hbit : e.bit = 0 := EncState.bit_eq_zero hlegal (by simp [hkind])
      cases h
      exact .inl ⟨next, hnext, by rw [← hbit], by simp [hbit]⟩
    | payload =>
      rw [hkind] at h
      by_cases hlast : e.bit = 15
      · simp only [emitPayload, hlast, if_true, Option.some.injEq, Prod.mk.injEq] at h
        exact .inl ⟨next, hnext, h.2.symm, by simp [hlast]⟩
      · simp only [emitPayload, hlast, if_false, Option.some.injEq, Prod.mk.injEq] at h
        exact .inr ⟨rfl, h.2.symm, Fin.val_add_one_of_lt (Fin.lt_last_iff_ne_last.2 hlast)⟩

/-- `enc_emit1` moves the cursor on by exactly one position and keeps (I-E2) (R124, R26). -/
theorem encEmit1_advances {c : Config} {e e' : EncState} {sym : OokSymbol} (hlegal : e.BitLegal)
    (h : encEmit1 c e = some (sym, e')) :
    e'.BitLegal ∧ pos e'.step e'.bit = pos e.step e.bit + 1 := by
  rcases encEmit1_cursor hlegal h with ⟨next, hnext, rfl, hbit⟩ | ⟨hkind, rfl, hbit⟩
  · refine ⟨fun hne => absurd rfl hne, ?_⟩
    have hbase := EncStep.base_succ hnext
    simp only [pos, Fin.val_zero]
    omega
  · refine ⟨fun _ => hkind, ?_⟩
    simp only [pos, hbit]
    omega

/-- The loop at a frame's end puts the whole cursor back to the start, the resume position being 0 already (R126). -/
theorem encLoop_completes (c : Config) (n : Nat) {e : EncState} (hlegal : e.BitLegal) (hdone : e.step = .payload3Done) :
    encLoop c n e = { symbols := [], status := .frameComplete, enc := { e with step := .reset, bit := 0 } } := by
  have hbit : e.bit = 0 := EncState.bit_eq_zero hlegal (by simp [hdone, EncStep.kind])
  rw [encLoop_done c n e hdone, ← hbit]

/-- How the loop of ENC.ENCODE ends (R125, R126): with the frame complete and the cursor back at the start, or with all
the space used and a legal cursor that many positions on. -/
theorem encLoop_ends (c : Config) (n : Nat) (e : EncState) (hlegal : e.BitLegal) :
    ((encLoop c n e).status = .frameComplete ∧ (encLoop c n e).enc = { e with step := .reset, bit := 0 }) ∨
    ((encLoop c n e).status = .bufferFull ∧ (encLoop c n e).enc.Inv ∧
      pos (encLoop c n e).enc.step (encLoop c n e).enc.bit = pos e.step e.bit + n) := by
  induction n generalizing e with
  | zero =>
    by_cases hdone : e.step = .payload3Done
    · exact .inl (by simp [encLoop_completes c 0 hlegal hdone])
    · exact .inr (by simp [encLoop_zero c e hdone, EncState.inv_iff, hdone, hlegal])
  | succ n ih =>
    cases hemit : encEmit1 c e with
    | none => exact .inl (by simp [encLoop_completes c (n + 1) hlegal (encEmit1_eq_none.1 hemit)])
    | some emitted =>
      obtain ⟨sym, e'⟩ := emitted
      obtain ⟨hlegal', hpos⟩ := encEmit1_advances hlegal hemit
      rw [encLoop_succ c n hemit]
      rcases ih e' hlegal' with ⟨hstatus, henc⟩ | ⟨hstatus, hinv, hpos'⟩
      · exact .inl ⟨hstatus, by rw [henc, encEmit1_msg hemit]⟩
      · exact .inr ⟨hstatus, hinv, by simp only [hpos']; omega⟩

/-- ENC.ENCODE from a legal cursor ends at a legal cursor (R25). -/
theorem encLoop_keeps_inv (c : Config) (n : Nat) {e : EncState} (h : e.Inv) : (encLoop c n e).enc.Inv := by
  rcases encLoop_ends c n e h.bitOnlyInPayload with ⟨-, henc⟩ | ⟨-, hinv, -⟩
  · rw [henc]
    exact EncState.inv_of_reset rfl rfl
  · exact hinv

/-- (I-E1) and (I-E2) do not speak of `enc.msg`. -/
theorem EncState.Inv.withMsg {e : EncState} (h : e.Inv) (m : U16) : EncState.Inv { e with msg := m } :=
  ⟨h.notDone, h.bitOnlyInPayload⟩

end Sys2Proof.Machine

/-! ### What one DEC.SYM, and a batch, keep in bounds (R29, R34, R205) -/

namespace Sys2Proof.Machine

/-- The bounds a decoder run leaves (I-D1, I-C1, R205): the part of the machine's invariant that is DEC's. -/
structure DecRun.Bounded (r : DecRun) : Prop where
  cnt    : r.dec.cnt.val ≤ 15
  ch     : r.ch.length ≤ config.chCap
  events : ∀ ev ∈ r.events, ev.inRange

/-- The one event of an abandoned run (R158). -/
theorem mem_decAbandon_events {d : DecState} {q : List U16} {ev : Event} :
    ev ∈ (decAbandon config d q).events ↔ 2 < d.cnt.val ∧ ev = .diag d.cnt.val := by
  by_cases hlong : 2 < d.cnt.val <;> simp [decAbandon, hlong]

/-- An abandoned run reports 3 to 15 bits, or nothing (R158, R205). -/
theorem decAbandon_bounded {d : DecState} {q : List U16} (hcnt : d.cnt.val ≤ 15) (hch : q.length ≤ config.chCap) :
    (decAbandon config d q).Bounded := by
  refine ⟨Nat.zero_le _, hch, ?_⟩
  intro ev hev
  obtain ⟨hlong, rfl⟩ := mem_decAbandon_events.1 hev
  exact ⟨hlong, hcnt⟩

/-- A completed frame pushes only while there is room, and reports no diagnostic (R156, R181). -/
theorem decComplete_bounded {d : DecState} {q : List U16} (hch : q.length ≤ config.chCap) :
    (decComplete config d q).Bounded := by
  rcases decComplete_cases d q with ⟨-, hroom, heq⟩ | ⟨-, -, heq⟩ | ⟨-, heq⟩ <;> rw [heq]
  · exact ⟨Nat.zero_le _, by simpa using hroom, by simp [Event.inRange]⟩
  · exact ⟨Nat.zero_le _, hch, by simp [Event.inRange]⟩
  · exact ⟨Nat.zero_le _, hch, by simp⟩

/-- What one DEC.SYM does is chosen by the symbol and `dec.cnt` alone (R153): abandon the run, write one bit and count
it, or write the last bit and complete the frame; in every decoder state with that count the same. -/
theorem decSymbol_cases (n : Fin 17) (sym : OokSymbol) :
    (∀ d q, d.cnt = n → decSymbol config d q sym = decAbandon config d q) ∨
    (∃ (b : Bool) (n' : Fin 17), n'.val = n.val + 1 ∧ n'.val ≤ 15 ∧ ∀ d q, d.cnt = n →
      decSymbol config d q sym =
        { dec := { d with acc := placeBit config d.acc n.val b, cnt := n' }, ch := q, events := [] }) ∨
    (∃ b : Bool, 15 ≤ n.val ∧ ∀ d q, d.cnt = n →
      decSymbol config d q sym = decComplete config { d with acc := placeBit config d.acc n.val b } q) := by
  cases hbit : (classify config sym (n.val == 15)).bit? with
  | none => exact .inl fun d q hn => by simp only [decSymbol_eq, hn, hbit]
  | some b =>
    by_cases hlt : n.val < 15
    · refine .inr (.inl ⟨b, ⟨n.val + 1, by omega⟩, rfl, hlt, ?_⟩)
      rintro d q rfl
      simp only [decSymbol_eq, hbit, decAccept_of_lt config d q b hlt]
    · refine .inr (.inr ⟨b, by omega, ?_⟩)
      rintro d q rfl
      simp only [decSymbol_eq, hbit, decAccept_of_last config d q b hlt]

/-- A completed frame restarts the run (R156). -/
@[simp] theorem decComplete_cnt (d : DecState) (q : List U16) : (decComplete config d q).dec.cnt = 0 := by
  rcases decComplete_cases d q with ⟨-, -, heq⟩ | ⟨-, -, heq⟩ | ⟨-, heq⟩ <;> rw [heq]

/-- (I-D1): DEC.SYM ends with fewer than sixteen bits accumulated, whatever it began with (R29, R153). -/
theorem decSymbol_cnt_le (d : DecState) (q : List U16) (sym : OokSymbol) :
    (decSymbol config d q sym).dec.cnt.val ≤ 15 := by
  rcases decSymbol_cases d.cnt sym with heq | ⟨b, n, -, hn, heq⟩ | ⟨b, -, heq⟩ <;> rw [heq d q rfl]
  · exact Nat.zero_le _
  · exact hn
  · rw [decComplete_cnt]
    exact Nat.zero_le _

/-- DEC.SYM leaves the bounds as it finds them (R153). -/
theorem decSymbol_bounded {d : DecState} {q : List U16} (hcnt : d.cnt.val ≤ 15) (hch : q.length ≤ config.chCap)
    (sym : OokSymbol) : (decSymbol config d q sym).Bounded := by
  rcases decSymbol_cases d.cnt sym with heq | ⟨b, n, -, hn, heq⟩ | ⟨b, -, heq⟩ <;> rw [heq d q rfl]
  · exact decAbandon_bounded hcnt hch
  · exact ⟨hn, hch, by simp⟩
  · exact decComplete_bounded hch

/-- So does a batch (R151). -/
theorem decSymbols_bounded (batch : List OokSymbol) {d : DecState} {q : List U16} (hcnt : d.cnt.val ≤ 15)
    (hch : q.length ≤ config.chCap) : (decSymbols config d q batch).Bounded := by
  induction batch generalizing d q with
  | nil => exact ⟨hcnt, hch, by simp⟩
  | cons sym rest ih =>
    have hfirst := decSymbol_bounded hcnt hch sym
    have hrest := ih hfirst.cnt hfirst.ch
    rw [decSymbols_cons]
    refine ⟨hrest.cnt, hrest.ch, fun ev hev => ?_⟩
    rcases List.mem_append.1 hev with hev | hev
    · exact hfirst.events ev hev
    · exact hrest.events ev hev

end Sys2Proof.Machine

/-! ### The machine's invariant (R25, R29, R34, R205) -/

namespace Sys2Proof.Machine

/-- A pop only shortens the channel (R182). -/
theorem chPop_length_le (q : List U16) : (chPop q).2.length ≤ q.length := by
  calc (chPop q).2.length
    _ ≤ ((chPop q).1.toList ++ (chPop q).2).length := by simp
    _ = q.length := by rw [chPop_split]

/-- Settles O5: every register at R39's value. -/
theorem resetMeetsInvariant : Obligations.ResetMeetsInvariant :=
  { enc := EncState.inv_of_reset rfl rfl
    cnt := Nat.zero_le _
    ch  := Nat.zero_le _
    log := by intro ev hev; cases hev }

/-- The invariant after DEC, from the bounds of its run. -/
theorem State.Inv.afterDec {s : State} (h : s.Inv) {r : DecRun} (hr : r.Bounded) : (s.afterDec r).Inv where
  enc := h.enc
  cnt := hr.cnt
  ch  := hr.ch
  log := by
    intro ev hev
    rcases List.mem_append.1 hev with hev | hev
    · exact h.log ev hev
    · exact hr.events ev hev

/-- The invariant after an operation without events, from what it wrote. -/
theorem State.Inv.finish_of_no_events {s u : State} (h : s.Inv) (r : Result) (henc : u.enc.Inv)
    (hcnt : u.dec.cnt.val ≤ 15) (hch : u.ch.length ≤ config.chCap) (hlog : u.log = s.log) : (u.finish r []).Inv where
  enc := henc
  cnt := hcnt
  ch  := hch
  log := by simpa [hlog] using h.log

/-- Every operation keeps the invariant. -/
theorem exec_keeps_inv {i : Instr} {s t : State} (h : s.Inv) (hexec : exec i s = .next t) : t.Inv := by
  cases exec_cases hexec with
  | encode capacity message run hstart hmsg hrun hroom =>
    subst hrun
    exact h.finish_of_no_events _ (encLoop_keeps_inv config capacity (h.enc.withMsg message)) h.cnt h.ch rfl
  | encReset => exact h.finish_of_no_events _ (EncState.inv_of_reset rfl rfl) h.cnt h.ch rfl
  | decode batch => exact h.afterDec (decSymbols_bounded batch (Nat.zero_le _) h.ch)
  | decBegin => exact h.finish_of_no_events _ h.enc (Nat.zero_le _) h.ch rfl
  | decSym sym => exact h.afterDec (decSymbol_bounded h.cnt h.ch sym)
  | pop => exact h.finish_of_no_events _ h.enc h.cnt ((chPop_length_le s.ch).trans h.ch) rfl
  | pure => exact h.finish_of_no_events _ h.enc h.cnt h.ch rfl
  | symbolWord => exact h.finish_of_no_events _ h.enc h.cnt h.ch rfl

/-- Device reset from any state whose history is in range (R230). -/
theorem deviceReset_inv (c : Config) {s : State} (hlog : ∀ ev ∈ s.log, ev.inRange) : (deviceReset c s).Inv where
  enc := EncState.inv_of_reset rfl rfl
  cnt := by simp
  ch  := Nat.zero_le _
  log := hlog

/-- The invariant does not speak of the inputs that wait. -/
theorem State.Inv.withPending {s : State} (h : s.Inv) (rest : List Input) : State.Inv { s with pending := rest } :=
  ⟨h.enc, h.cnt, h.ch, h.log⟩

/-- Settles O6, by the inputs a step can take: an event of the environment writes nothing the invariant speaks of, or is
a device reset; an operation keeps it by `exec_keeps_inv`. -/
theorem stepKeepsInvariant : Obligations.StepKeepsInvariant := by
  intro s t h hstep
  rcases step_cases hstep with ⟨-, rfl⟩ | ⟨free, rest, -, rfl⟩ | ⟨rest, -, rfl⟩ | ⟨rest, -, -, rfl⟩ |
    ⟨r, rest, i, -, -, -, hexec⟩
  · exact h
  · exact ⟨h.enc, h.cnt, h.ch, h.log⟩
  · exact deviceReset_inv config h.log
  · exact ⟨h.enc, h.cnt, h.ch, h.log⟩
  · exact exec_keeps_inv (h.withPending rest) hexec

end Sys2Proof.Machine

/-! ### Two decoder runs side by side (R30, R31)

What DEC does not read is shown by two runs from decoder states that a relation ties together: one DEC.SYM keeps the
relation and gives both the same channel and the same events, so a batch does too. -/

namespace Sys2Proof.Machine

/-- Two decoder runs that no other agent can tell apart, their registers tied by `R`. -/
structure DecRun.Related (R : DecState → DecState → Prop) (r r' : DecRun) : Prop where
  dec    : R r.dec r'.dec
  ch     : r'.ch = r.ch
  events : r'.events = r.events

theorem DecRun.Related.refl {R : DecState → DecState → Prop} (hrefl : ∀ d, R d d) (r : DecRun) : r.Related R r :=
  ⟨hrefl r.dec, rfl, rfl⟩

/-- A relation that every DEC.SYM keeps is kept by a batch (R151). -/
theorem decSymbols_related {R : DecState → DecState → Prop}
    (hsymbol : ∀ d d' q sym, R d d' → (decSymbol config d q sym).Related R (decSymbol config d' q sym))
    (batch : List OokSymbol) {d d' : DecState} (q : List U16) (h : R d d') :
    (decSymbols config d q batch).Related R (decSymbols config d' q batch) := by
  induction batch generalizing d d' q with
  | nil => exact ⟨h, rfl, rfl⟩
  | cons sym rest ih =>
    have hfirst := hsymbol d d' q sym h
    have hrest := ih (decSymbol config d q sym).ch hfirst.dec
    simp only [decSymbols_cons, hfirst.ch]
    exact ⟨hrest.dec, hrest.ch, by simp only [hfirst.events, hrest.events]⟩

/-- Related runs put into the machine leave it equal but for DEC's registers. -/
theorem afterDec_of_related {R : DecState → DecState → Prop} {r r' : DecRun} (h : r.Related R r') (s : State)
    (d : DecState) : State.afterDec { s with dec := d } r' = { s.afterDec r with dec := r'.dec } := by
  simp [State.afterDec, State.finish, h.ch, h.events]

end Sys2Proof.Machine

/-! ### Stale accumulator bits (R30, R155) -/

namespace Sys2Proof.Machine

/-- The accumulators agree on the bits that the first `n` symbols of a run write (R155). -/
def AgreeOnFirst (n : Nat) (acc acc' : U16) : Prop := ∀ j < n, acc'.getLsbD (15 - j) = acc.getLsbD (15 - j)

/-- What DEC.SYM's write does to each bit: `15 - n` is set, the others stay (R155). -/
theorem getLsbD_placeBit (acc : U16) (n i : Nat) (b : Bool) :
    (placeBit config acc n b).getLsbD i = if i = 15 - n then b else acc.getLsbD i := by
  simp only [placeBit, bitIndex, config_payloadMsbFirst, if_true]
  exact getLsbD_setBit acc (15 - n) i b (by omega)

/-- The same bit written to both extends the agreement by one. -/
theorem AgreeOnFirst.placeBit {n : Nat} {acc acc' : U16} (h : AgreeOnFirst n acc acc') (b : Bool) :
    AgreeOnFirst (n + 1) (placeBit config acc n b) (placeBit config acc' n b) := by
  intro j hj
  rw [getLsbD_placeBit, getLsbD_placeBit]
  split
  · rfl
  · exact h j (by omega)

/-- After sixteen bits nothing stale is left. -/
theorem AgreeOnFirst.eq {n : Nat} {acc acc' : U16} (h : AgreeOnFirst n acc acc') (hn : 16 ≤ n) : acc' = acc := by
  refine BitVec.eq_of_getLsbD_eq fun i hi => ?_
  have hbit := h (15 - i) (by omega)
  rwa [show 15 - (15 - i) = i by omega] at hbit

/-- Two decoder states that differ in accumulator bits not yet written in the run in progress (R30). -/
def DecState.DifferInStaleBits (d d' : DecState) : Prop :=
  ∃ acc, d' = { d with acc := acc } ∧ AgreeOnFirst d.cnt.val d.acc acc

theorem DecState.DifferInStaleBits.refl (d : DecState) : d.DifferInStaleBits d := ⟨d.acc, rfl, fun _ _ => rfl⟩

/-- At count 0 every accumulator bit is stale. -/
theorem DecState.differInStaleBits_of_cnt_zero {d : DecState} (h : d.cnt = 0) (acc : U16) :
    d.DifferInStaleBits { d with acc := acc } :=
  ⟨acc, rfl, fun j hj => by simp [h] at hj⟩

/-- DEC.SYM does not show a stale bit: an abandoned run reports its count alone, and the sixteenth bit overwrites the
last stale one before the validator reads the accumulator (R155, R156, R158). -/
theorem decSymbol_related_of_staleBits (d d' : DecState) (q : List U16) (sym : OokSymbol)
    (h : d.DifferInStaleBits d') :
    (decSymbol config d q sym).Related DecState.DifferInStaleBits (decSymbol config d' q sym) := by
  obtain ⟨acc, rfl, hagree⟩ := h
  rcases decSymbol_cases d.cnt sym with heq | ⟨b, n, hn, -, heq⟩ | ⟨b, hlast, heq⟩ <;>
    rw [heq d q rfl, heq { d with acc := acc } q rfl]
  · exact ⟨⟨acc, rfl, fun j hj => absurd hj (Nat.not_lt_zero j)⟩, rfl, rfl⟩
  · exact ⟨⟨_, rfl, hn ▸ hagree.placeBit b⟩, rfl, rfl⟩
  · have hfull : placeBit config acc d.cnt.val b = placeBit config d.acc d.cnt.val b :=
      (hagree.placeBit b).eq (by omega)
    rw [hfull]
    exact .refl DecState.DifferInStaleBits.refl _

/-- DEC.SYM completes at every count but 16 (R29). -/
theorem exec_decSym {s : State} (hcnt : s.dec.cnt.val ≠ 16) (sym : OokSymbol) :
    exec (.decSym sym) s = .next (s.afterDec (decSymbol config s.dec s.ch sym)) := by
  simp only [exec, execDecSym, hcnt, if_false]

theorem execAll_cons_of_next {i : Instr} {is : List Instr} {s t : State} (h : exec i s = .next t) :
    execAll (i :: is) s = execAll is t := by
  simp only [execAll, h]

/-- Stale bits stay stale over DEC.SYM operations, and nothing else differs. -/
theorem execAll_decSym_of_staleBits (batch : List OokSymbol) {s : State} {d : DecState} (hcnt : s.dec.cnt.val ≤ 15)
    (h : s.dec.DifferInStaleBits d) :
    ∃ (t : State) (d' : DecState), execAll (batch.map .decSym) s = .next t ∧
      execAll (batch.map .decSym) { s with dec := d } = .next { t with dec := d' } ∧ t.dec.DifferInStaleBits d' := by
  induction batch generalizing s d with
  | nil => exact ⟨s, d, rfl, rfl, h⟩
  | cons sym rest ih =>
    have hcnt' : d.cnt.val ≠ 16 := by obtain ⟨acc, rfl, -⟩ := h; exact Nat.ne_of_lt (Nat.lt_succ_of_le hcnt)
    have hrel := decSymbol_related_of_staleBits s.dec d s.ch sym h
    obtain ⟨t, d', ht, hu, hd'⟩ :=
      ih (s := s.afterDec (decSymbol config s.dec s.ch sym)) (decSymbol_cnt_le s.dec s.ch sym) hrel.dec
    refine ⟨t, d', ?_, ?_, hd'⟩
    · rw [List.map_cons, execAll_cons_of_next (exec_decSym (by omega) sym), ht]
    · rw [List.map_cons, execAll_cons_of_next (exec_decSym (s := { s with dec := d }) hcnt' sym),
        afterDec_of_related hrel, hu]

/-- Settles O42, by a relation between two runs: they agree on every accumulator bit written since the run began. -/
theorem staleAccumulatorUnobservable : Obligations.StaleAccumulatorUnobservable := by
  intro s stale batch hcnt
  obtain ⟨t, d, ht, hu, acc, rfl, -⟩ :=
    execAll_decSym_of_staleBits batch (by simp [hcnt]) (DecState.differInStaleBits_of_cnt_zero hcnt stale)
  exact ⟨t, _, ht, hu, rfl⟩

end Sys2Proof.Machine

/-! ### Registers left unspecified (R24, R31, R39) -/

namespace Sys2Proof.Machine

/-- Two decoder states that differ in `dec.last` alone, and only while the latch is empty (R31). -/
def DecState.DifferInEmptyLatch (d d' : DecState) : Prop :=
  ∃ last, d' = { d with last := last } ∧ (d.lastValid = true → last = d.last)

theorem DecState.DifferInEmptyLatch.refl (d : DecState) : d.DifferInEmptyLatch d := ⟨d.last, rfl, fun _ => rfl⟩

/-- The duplicate test does not look into an empty latch (R157). -/
theorem isNew_withLast {d : DecState} {last : U16} (h : d.lastValid = true → last = d.last) (m : U16) :
    isNew { d with last := last } m = isNew d m := by
  by_cases hvalid : d.lastValid = true
  · rw [h hvalid]
  · simp [isNew, hvalid]

/-- The frame validator gives the same outcome whatever an empty latch held: it writes the latch in any case (R156). -/
theorem decComplete_withLast {d : DecState} {last : U16} (h : d.lastValid = true → last = d.last) (q : List U16) :
    decComplete config { d with last := last } q = decComplete config d q := by
  simp only [decComplete, isNew_withLast h]

/-- DEC.SYM does not read an empty latch (R31). -/
theorem decSymbol_related_of_emptyLatch (d d' : DecState) (q : List U16) (sym : OokSymbol)
    (h : d.DifferInEmptyLatch d') :
    (decSymbol config d q sym).Related DecState.DifferInEmptyLatch (decSymbol config d' q sym) := by
  obtain ⟨last, rfl, hlast⟩ := h
  rcases decSymbol_cases d.cnt sym with heq | ⟨b, n, -, -, heq⟩ | ⟨b, -, heq⟩ <;>
    rw [heq d q rfl, heq { d with last := last } q rfl]
  · exact ⟨⟨last, rfl, hlast⟩, rfl, rfl⟩
  · exact ⟨⟨last, rfl, hlast⟩, rfl, rfl⟩
  · rw [decComplete_withLast (d := { d with acc := placeBit config d.acc d.cnt.val b }) hlast q]
    exact .refl DecState.DifferInEmptyLatch.refl _

/-- At `Reset` ENC.ENCODE samples its message, whatever `enc.msg` held (R122). -/
theorem encStart_of_reset {e : EncState} (h : e.step = .reset) (m : U16) : encStart e m = .ok { e with msg := m } :=
  encStart_eq_ok.2 ⟨by simp [h], .inl h, rfl⟩

/-- The hand-over takes ENC from the loop and not from the state before it (R125). -/
theorem encDeliver_withEnc (run : EncRun) (s : State) (e : EncState) :
    encDeliver run { s with enc := e } = encDeliver run s := rfl

/-- Settles O45: the message is sampled before it is read, and two decoder runs that differ in an empty latch stay so
until a completed frame writes it. -/
theorem unspecifiedRegistersAreNotRead : Obligations.UnspecifiedRegistersAreNotRead := by
  constructor
  · intro s x m capacity hreset
    simp only [exec, execEncEncode, encStart_of_reset hreset,
      encStart_of_reset (e := { s.enc with msg := x }) hreset, encDeliver_withEnc]
  · intro s x batch hempty
    have hbegin : (decBegin config s.dec).DifferInEmptyLatch (decBegin config { s.dec with last := x }) :=
      ⟨x, rfl, by simp [hempty]⟩
    have hrun := decSymbols_related decSymbol_related_of_emptyLatch batch s.ch hbegin
    refine ⟨_, _, rfl, rfl, ?_⟩
    rw [afterDec_of_related hrun]
    obtain ⟨last, hdec, hlast⟩ := hrun.dec
    constructor
    · simp only [hdec, State.afterDec_dec]
    · intro hvalid
      rw [hdec]
      exact hlast hvalid

end Sys2Proof.Machine

/-! ### What each agent's operations leave alone (R20, R25, R38, R61) -/

namespace Sys2Proof.Machine

/-- A state in which nothing can be appended to TXBUF and no frame can be begun. -/
def blockedState : State :=
  { State.reset with enc := { EncState.initial with step := .payload3Done }, tx := { free := some 0, syms := [] } }

/-- Only the emission collaborator's operations are an append to TXBUF and nothing else: `blockedState` tells every other
operation apart, for it completes there or is refused under another name. -/
theorem agentOf_of_exec_eq_appendSymbol {i : Instr} {sym : OokSymbol} (h : ∀ s, exec i s = appendSymbol sym s) :
    agentOf i = .emission := by
  have hblocked : exec i blockedState = .refused .txbufOverrun := h blockedState
  cases i with
  | zero | one | header | delay => rfl
  | pmEnc channel on =>
    simp only [exec, execPmEnc, callerError] at hblocked
    split at hblocked <;> cases hblocked
  | encEncode | encReset | decDecode | decBegin | decSym | chPop | cmpWin | cmpClassify | pmDec => cases hblocked

/-- Settles O55, by what each kind of next state writes. -/
theorem agentsOwnTheirState : Obligations.AgentsOwnTheirState := by
  intro i s t h
  cases exec_cases h with
  | encode | encReset => simp [agentOf]
  | decode | decBegin | decSym => simp [agentOf]
  | pop => simp [agentOf]
  | pure => simp
  | symbolWord i sym tx hword => simp [agentOf_of_exec_eq_appendSymbol hword]

/-- Settles O24, by how ENC.ENCODE's loop ends; no other operation but ENC.RESET writes the cursor. -/
theorem encoderCursorMonotone : Obligations.EncoderCursorMonotone := by
  intro i s t hinv h
  cases exec_cases h with
  | encode capacity message run hstart hmsg hrun hroom =>
    subst hrun
    rcases encLoop_ends config capacity _ (hinv.withMsg message).bitOnlyInPayload with ⟨hstatus, -⟩ | ⟨-, -, hpos⟩
    · exact .inr (.inr ⟨_, _, by rw [State.finish_result, hstatus]⟩)
    · exact .inl (by simp only [State.finish_enc, hpos]; omega)
  | encReset => exact .inr (.inl rfl)
  | decode | decBegin | decSym | pop | pure | symbolWord => exact .inl le_rfl

/-- ENC.ENCODE completes where the message may be sent and what it emits has room (R125). -/
theorem exec_encEncode_of_room {s : State} {capacity : Nat} {m : U16} {run : EncRun}
    (hstep : s.enc.step ≠ .payload3Done) (hmsg : s.enc.step = .reset ∨ m = s.enc.msg)
    (hrun : run = encLoop config capacity { s.enc with msg := m }) (hroom : s.tx.hasRoom run.symbols.length) :
    exec (.encEncode capacity m) s = .next (State.finish
      { s with enc := run.enc, tx := { free := s.tx.free.map (· - run.symbols.length), syms := s.tx.syms ++ run.symbols } }
      (.encoded run.symbols.length run.status run.symbols) []) := by
  have hstart : encStart s.enc m = .ok { s.enc with msg := m } := encStart_eq_ok.2 ⟨hstep, hmsg, rfl⟩
  simp only [exec, execEncEncode, hstart, encDeliver, ← hrun, txAppendAll_of_room s.tx run.symbols hroom]

/-- A symbol word completes where TXBUF takes its symbol. -/
theorem appendSymbol_of_txAppend {s : State} {sym : OokSymbol} {tx : TxBuf} (h : txAppend s.tx sym = some tx) :
    appendSymbol sym s = .next (State.finish { s with tx := tx } .none []) := by
  simp only [appendSymbol, h]

/-- Settles O57: each kind of next state is answered from ENC, DEC, the channel and TXBUF alone. -/
theorem outputsAreNotState : Obligations.OutputsAreNotState := by
  rintro i ⟨enc, dec, ch, tx, _, _, _, _, _, _⟩ s' t hblock h
  obtain ⟨enc', dec', ch', tx', out', result', events', log', draws', pending'⟩ := s'
  obtain ⟨rfl, rfl, rfl, rfl⟩ : enc = enc' ∧ dec = dec' ∧ ch = ch' ∧ tx = tx' := by simpa [State.block] using hblock
  cases exec_cases h with
  | encode capacity message run hstart hmsg hrun hroom =>
    exact ⟨_, exec_encEncode_of_room hstart hmsg hrun hroom, rfl, rfl, rfl⟩
  | encReset | decode | decBegin | pop => exact ⟨_, rfl, rfl, rfl, rfl⟩
  | decSym sym hcnt => exact ⟨_, exec_decSym (by exact hcnt) sym, rfl, rfl, rfl⟩
  | pure i r hpure => exact ⟨_, hpure _, rfl, rfl, rfl⟩
  | symbolWord i sym tx hword htx =>
    exact ⟨_, (hword _).trans (appendSymbol_of_txAppend htx), rfl, rfl, rfl⟩

end Sys2Proof.Machine

/-! ### Reset, and the values held only inside an operation (R25, R29, R39) -/

namespace Sys2Proof.Machine

/-- Settles O1, each value read off the state after reset. -/
theorem resetLeavesListedValues : Obligations.ResetLeavesListedValues := ⟨rfl, rfl, rfl, rfl, rfl, rfl⟩

/-- A call of ENC.ENCODE cannot begin at `Payload3Done`, whatever its message (R25, U11). -/
theorem encStart_of_payload3Done {e : EncState} (h : e.step = .payload3Done) (m : U16) :
    encStart e m = .error .payload3DoneAtStart := by
  simp [encStart, h]

/-- Settles O20, by the checks both operations begin with. -/
theorem valuesHeldInsideOnlyAreRefusedAtStart : Obligations.ValuesHeldInsideOnlyAreRefusedAtStart := by
  constructor
  · intro s capacity m hstep
    simp only [exec, execEncEncode, encStart_of_payload3Done hstep, callerError]
  · intro s sym hcnt
    simp only [exec, execDecSym, hcnt, if_true]

end Sys2Proof.Machine

/-! ### Positions in the frame (R26, R27) -/

namespace Sys2Proof.Machine

@[simp] theorem payloadSymbols_length (c : Config) (m : U16) : (payloadSymbols c m).length = 16 := by
  simp [payloadSymbols]

theorem getElem?_payloadSymbols (c : Config) (m : U16) {j : Nat} (hj : j < 16) :
    (payloadSymbols c m)[j]? = some (bitSymbol c (payloadBit c m j)) := by
  simp [payloadSymbols, hj]

/-- What follows the header: a repetition and its delay, four times (R27). The frame drops the last delay. -/
def frameBlock (c : Config) (m : U16) : List OokSymbol := payloadSymbols c m ++ [c.delay]

@[simp] theorem frameBlock_length (c : Config) (m : U16) : (frameBlock c m).length = 17 := by simp [frameBlock]

theorem getElem?_frameBlock (c : Config) (m : U16) {j : Nat} (hj : j < 17) :
    (frameBlock c m)[j]? = some (if j = 16 then c.delay else bitSymbol c (payloadBit c m j)) := by
  by_cases hlast : j = 16
  · simp [frameBlock, hlast]
  · have hj' : j < 16 := by omega
    rw [frameBlock, List.getElem?_append_left (by simpa using hj'), getElem?_payloadSymbols c m hj', if_neg hlast]

theorem frame_append_delay (c : Config) (m : U16) :
    frame c m ++ [c.delay] = c.header :: (List.replicate 4 (frameBlock c m)).flatten := by
  simp [frame, frameBlock, List.replicate]

theorem frame_length (c : Config) (m : U16) : (frame c m).length = 68 := by simp [frame]

/-- A list of equal blocks read by position: the block is the quotient, the place in it the remainder. -/
theorem getElem?_flatten_replicate {α : Type} (block : List α) (k p : Nat) (hp : p < k * block.length) :
    (List.replicate k block).flatten[p]? = block[p % block.length]? := by
  induction k generalizing p with
  | zero => simp at hp
  | succ k ih =>
    rw [List.replicate_succ, List.flatten_cons]
    by_cases hfirst : p < block.length
    · rw [List.getElem?_append_left hfirst, Nat.mod_eq_of_lt hfirst]
    · have hle : block.length ≤ p := by omega
      rw [List.getElem?_append_right hle, ih (p - block.length) (by rw [Nat.succ_mul] at hp; omega),
        ← Nat.mod_eq_sub_mod hle]

/-- Settles O13: after the header the frame is four blocks of 17, read by quotient and remainder as R27 does. -/
theorem frameReadByPosition : Obligations.FrameReadByPosition := by
  intro c m p hp
  rw [← List.getElem?_append_left (l₂ := [c.delay]) (by simpa [frame_length] using hp), frame_append_delay]
  cases p with
  | zero => rfl
  | succ k =>
    have hmod : k % 17 < 17 := Nat.mod_lt k (by omega)
    rw [List.getElem?_cons_succ, getElem?_flatten_replicate _ 4 k (by simp; omega), frameBlock_length,
      getElem?_frameBlock c m hmod]
    have hdelay : k % 17 = 16 ↔ k + 1 = 17 ∨ k + 1 = 34 ∨ k + 1 = 51 := by omega
    simp only [frameSymbolAt, hdelay, Nat.succ_ne_zero, if_false, Nat.add_sub_cancel]

/-- The cursor at a position is legal, and has that position (R26). -/
theorem cursorAt_legal {p : Nat} (hp : p < 68) (m : U16) :
    EncState.Inv { step := (cursorAt p).1, bit := (cursorAt p).2, msg := m } ∧
      pos (cursorAt p).1 (cursorAt p).2 = p := by
  rw [EncState.inv_iff, EncState.BitLegal, cursorAt]
  split_ifs <;> simp [EncStep.kind, pos, EncStep.base] <;> omega

/-- In a payload every resume position is read back from its position, boundaries included. -/
theorem cursorAt_pos_of_payload {step : EncStep} (h : step.kind = .payload) :
    ∀ bit : Fin 16, pos step bit < 68 ∧ cursorAt (pos step bit) = (step, bit) := by
  cases step with
  | headerDone | delay0Done | delay1Done | delay2Done => decide
  | reset | payload0Done | payload1Done | payload2Done | payload3Done => cases h

/-- The start of every sub-step of a frame is read back from its position. -/
theorem cursorAt_pos_start {step : EncStep} (h : step ≠ .payload3Done) :
    pos step 0 < 68 ∧ cursorAt (pos step 0) = (step, 0) := by
  cases step with
  | payload3Done => exact absurd rfl h
  | reset | headerDone | payload0Done | delay0Done | payload1Done | delay1Done | payload2Done | delay2Done => decide

/-- Settles O14: a legal cursor stands in a payload or at the start of its sub-step, and both are read back. -/
theorem positionIsBijection : Obligations.PositionIsBijection := by
  constructor
  · intro e h
    by_cases hkind : e.step.kind = .payload
    · exact cursorAt_pos_of_payload hkind e.bit
    · rw [EncState.bit_eq_zero h.bitOnlyInPayload hkind]
      exact cursorAt_pos_start h.notDone
  · exact fun p m hp => cursorAt_legal hp m

end Sys2Proof.Machine

/-! ### What two agents' operations share (R20, R61)

ENC reads and writes its registers and TXBUF; DEC, the consumer and the application read and write DEC's registers and
the channel. Neither's outcome depends on the other's part, so the two orders give one block. -/

namespace Sys2Proof.Machine

/-- What an ENC operation does depends on ENC and TXBUF alone (R20). -/
theorem exec_enc_congr {i : Instr} {s b a : State} (hi : agentOf i = .enc) (henc : b.enc = s.enc) (htx : b.tx = s.tx)
    (h : exec i s = .next a) :
    ∃ u, exec i b = .next u ∧ u.enc = a.enc ∧ u.tx = a.tx ∧ u.result = a.result ∧ u.events = a.events := by
  cases exec_cases h with
  | encode capacity message run hstart hmsg hrun hroom =>
    rw [← henc] at hstart hmsg hrun
    rw [← htx] at hroom
    exact ⟨_, exec_encEncode_of_room hstart hmsg hrun hroom, rfl, by simp [htx], rfl, rfl⟩
  | encReset => exact ⟨_, rfl, by simp [henc], htx, rfl, rfl⟩
  | pure i r hpure => exact ⟨_, hpure b, henc, htx, rfl, rfl⟩
  | symbolWord i sym tx hword => rw [agentOf_of_exec_eq_appendSymbol hword] at hi; cases hi
  | decode | decBegin | decSym | pop => cases hi

/-- What an operation of DEC, the consumer or the application does depends on DEC and the channel alone (R20). -/
theorem exec_other_congr {j : Instr} {a s t : State} (henc : agentOf j ≠ .enc) (hemission : agentOf j ≠ .emission)
    (hdec : s.dec = a.dec) (hch : s.ch = a.ch) (h : exec j a = .next t) :
    ∃ b, exec j s = .next b ∧ b.dec = t.dec ∧ b.ch = t.ch ∧ b.result = t.result ∧ b.events = t.events := by
  cases exec_cases h with
  | decode batch => exact ⟨_, rfl, by simp [hdec, hch]⟩
  | decBegin => exact ⟨_, rfl, by simp [hdec, hch]⟩
  | decSym sym hcnt =>
    rw [← hdec] at hcnt
    exact ⟨_, exec_decSym hcnt sym, by simp [hdec, hch]⟩
  | pop => exact ⟨_, rfl, by simp [hdec, hch]⟩
  | pure j r hpure => exact ⟨_, hpure s, hdec, hch, rfl, rfl⟩
  | symbolWord j sym tx hword => exact absurd (agentOf_of_exec_eq_appendSymbol hword) hemission
  | encode | encReset => exact absurd rfl henc

/-- What an ENC operation leaves alone (R20). -/
theorem exec_enc_frame {i : Instr} {s a : State} (hi : agentOf i = .enc) (h : exec i s = .next a) :
    a.dec = s.dec ∧ a.ch = s.ch ∧ a.log = s.log := by
  obtain ⟨-, hdec, hch, -, hevents, -⟩ := agentsOwnTheirState i s a h
  exact ⟨hdec (by simp [hi]), hch (by simp [hi]) (by simp [hi]), (hevents (by simp [hi])).2⟩

/-- What an operation of DEC, the consumer or the application leaves alone, and what it adds to the history (R20). -/
theorem exec_other_frame {j : Instr} {s b : State} (henc : agentOf j ≠ .enc) (hemission : agentOf j ≠ .emission)
    (h : exec j s = .next b) : b.enc = s.enc ∧ b.tx = s.tx ∧ b.log = s.log ++ b.events := by
  obtain ⟨henc', -, -, htx, -, hlog, -⟩ := agentsOwnTheirState j s b h
  exact ⟨henc' henc, htx henc hemission, hlog⟩

/-- Settles O56: the second operation finds its part of the block as it was, and so does the first in the other order. -/
theorem encoderCommutesWithOthers : Obligations.EncoderCommutesWithOthers := by
  intro i j s a t hi henc hemission hia hjt
  obtain ⟨hadec, hach, halog⟩ := exec_enc_frame hi hia
  obtain ⟨htenc, httx, htlog⟩ := exec_other_frame henc hemission hjt
  obtain ⟨b, hjb, hbdec, hbch, hbresult, hbevents⟩ := exec_other_congr henc hemission hadec.symm hach.symm hjt
  obtain ⟨hbenc, hbtx, hblog⟩ := exec_other_frame henc hemission hjb
  obtain ⟨u, hiu, huenc, hutx, huresult, huevents⟩ := exec_enc_congr hi hbenc hbtx hia
  obtain ⟨hudec, huch, hulog⟩ := exec_enc_frame hi hiu
  refine ⟨b, u, hjb, hiu, ?_, ?_, huresult, huevents, hbresult, hbevents⟩
  · simp only [State.block, huenc, hutx, hudec, huch, hbdec, hbch, htenc, httx]
  · rw [hulog, hblog, htlog, halog, hbevents]

end Sys2Proof.Machine

/-! ### Batches DEC passes over, and batches that complete a frame (R155 to R158)

Between two frames DEC's count is 0. There an invalid symbol changes nothing, and sixteen symbols classed as the bits of
a message hand that message to the frame validator. -/

namespace Sys2Proof.Machine

/-- An invalid symbol between two frames changes nothing (R158). -/
theorem decSymbol_of_invalid {d : DecState} (hcnt : d.cnt = 0) (q : List U16) {sym : OokSymbol}
    (h : classify config sym false = .invalid) : decSymbol config d q sym = { dec := d, ch := q, events := [] } := by
  obtain ⟨cnt, acc, last, lastValid⟩ := d
  obtain rfl : cnt = 0 := hcnt
  have hclass : classify config sym ((0 : Fin 17).val == 15) = .invalid := h
  rw [decSymbol_eq, hclass]
  rfl

/-- So do any number of them. -/
theorem decSymbols_of_all_invalid {d : DecState} (hcnt : d.cnt = 0) (q : List U16) (batch : List OokSymbol)
    (h : ∀ sym ∈ batch, classify config sym false = .invalid) :
    decSymbols config d q batch = { dec := d, ch := q, events := [] } := by
  induction batch with
  | nil => rfl
  | cons sym rest ih =>
    obtain ⟨hsym, hrest⟩ := List.forall_mem_cons.1 h
    rw [decSymbols_cons, decSymbol_of_invalid hcnt q hsym, ih hrest]
    rfl

/-- A first symbol that changes nothing can be left out. -/
theorem decSymbols_cons_of_invalid {d : DecState} (hcnt : d.cnt = 0) (q : List U16) {sym : OokSymbol}
    (h : classify config sym false = .invalid) (rest : List OokSymbol) :
    decSymbols config d q (sym :: rest) = decSymbols config d q rest := by
  rw [decSymbols_cons, decSymbol_of_invalid hcnt q h]
  rfl

/-- The symbols of a frame are the four of R72. -/
theorem mem_frame {c : Config} {m : U16} {sym : OokSymbol} (h : sym ∈ frame c m) :
    sym = c.header ∨ sym = c.delay ∨ ∃ b, sym = bitSymbol c b := by
  have hpayload : sym ∈ payloadSymbols c m → ∃ b, sym = bitSymbol c b := by
    intro hmem
    obtain ⟨j, -, rfl⟩ := List.mem_map.1 hmem
    exact ⟨_, rfl⟩
  simp only [frame, List.mem_append, List.mem_singleton] at h
  tauto

/-- No symbol of a frame is valid before the unit conversion: `ZERO` has a one's high duration with too long a low one,
the others are too long on (R66, R247). -/
theorem classify_frame_unconverted {m : U16} {sym : OokSymbol} (h : sym ∈ frame config m) :
    classify config sym false = .invalid := by
  rcases mem_frame h with rfl | rfl | ⟨b, rfl⟩
  · decide
  · decide
  · cases b <;> decide

/-- Settles O37: every symbol of the batch is invalid, and DEC.BEGIN has cleared the count. -/
theorem unconvertedFrameDecodesToNothing : Obligations.UnconvertedFrameDecodesToNothing := by
  intro s m
  have hrun : decSymbols config (decBegin config s.dec) s.ch (frame config m) =
      { dec := decBegin config s.dec, ch := s.ch, events := [] } :=
    decSymbols_of_all_invalid rfl s.ch _ fun _ hmem => classify_frame_unconverted hmem
  simp only [exec, execDecDecode, hrun]
  simp [State.afterDec, State.finish, decBegin]

/-- Writing a bit that stands there already changes nothing. -/
theorem placeBit_self (m : U16) (n : Nat) : placeBit config m n (m.getLsbD (15 - n)) = m := by
  refine BitVec.eq_of_getLsbD_eq fun i _ => ?_
  rw [getLsbD_placeBit]
  split
  · next h => rw [h]
  · rfl

/-- A run in progress that the captured symbols finish as `m`: its bits so far are `m`'s, and each captured symbol is
classed as the bit of `m` at its place, the sixteenth one's low duration exempt (R106, R154, R155). -/
structure FinishesAs (d : DecState) (m : U16) (captured : List OokSymbol) : Prop where
  length  : d.cnt.val + captured.length = 16
  bits    : AgreeOnFirst d.cnt.val d.acc m
  classes : ∀ (j : Nat) (h : j < captured.length),
    classify config captured[j] (d.cnt.val + j == 15) = if m.getLsbD (15 - (d.cnt.val + j)) then .one else .zero

/-- The next symbol is accepted as the next bit of the message. -/
theorem FinishesAs.decSymbol_head {d : DecState} {m : U16} {sym : OokSymbol} {rest : List OokSymbol}
    (h : FinishesAs d m (sym :: rest)) (q : List U16) :
    decSymbol config d q sym = decAccept config d q (m.getLsbD (15 - d.cnt.val)) := by
  have hclass : classify config sym (d.cnt.val == 15) = if m.getLsbD (15 - d.cnt.val) then .one else .zero :=
    h.classes 0 (by simp)
  rw [decSymbol_eq, hclass]
  cases m.getLsbD (15 - d.cnt.val) <;> rfl

/-- The bits after that are the message's still. -/
theorem FinishesAs.agree_succ {d : DecState} {m : U16} {captured : List OokSymbol} (h : FinishesAs d m captured) :
    AgreeOnFirst (d.cnt.val + 1) (placeBit config d.acc d.cnt.val (m.getLsbD (15 - d.cnt.val))) m := by
  have hagree := h.bits.placeBit (m.getLsbD (15 - d.cnt.val))
  rwa [placeBit_self] at hagree

/-- The rest of a run is one too, one bit on. -/
theorem FinishesAs.tail {d : DecState} {m : U16} {sym : OokSymbol} {rest : List OokSymbol}
    (h : FinishesAs d m (sym :: rest)) {cnt : Fin 17} (hcnt : cnt.val = d.cnt.val + 1) :
    FinishesAs { d with acc := placeBit config d.acc d.cnt.val (m.getLsbD (15 - d.cnt.val)), cnt := cnt } m rest where
  length  := by have hlength := h.length; simp only [List.length_cons] at hlength; simp only [hcnt]; omega
  bits    := by simpa only [hcnt] using h.agree_succ
  classes := by
    intro j hj
    have hclass := h.classes (j + 1) (by simpa using hj)
    simpa only [hcnt, List.getElem_cons_succ, Nat.add_assoc, Nat.add_comm 1 j] using hclass

/-- A run finished as `m` hands `m` to the frame validator, once, at its end (R155, R156). -/
theorem decSymbols_of_finishesAs (captured : List OokSymbol) {d : DecState} {m : U16} (q : List U16)
    (hcnt : d.cnt.val ≤ 15) (h : FinishesAs d m captured) :
    decSymbols config d q captured = decComplete config { d with acc := m } q := by
  induction captured generalizing d with
  | nil => have hlength := h.length; simp only [List.length_nil] at hlength; omega
  | cons sym rest ih =>
    rw [decSymbols_cons, h.decSymbol_head q]
    by_cases hlt : d.cnt.val < 15
    · rw [decAccept_of_lt config d q _ hlt]
      rw [ih (by exact hlt) (h.tail (cnt := ⟨d.cnt.val + 1, by omega⟩) rfl)]
      rfl
    · obtain rfl : rest = [] := by
        have hlength := h.length
        simp only [List.length_cons] at hlength
        exact List.eq_nil_of_length_eq_zero (by omega)
      have hfull : m = placeBit config d.acc d.cnt.val (m.getLsbD (15 - d.cnt.val)) := h.agree_succ.eq (by omega)
      rw [decAccept_of_last config d q _ hlt, ← hfull]
      simp

/-- Sixteen symbols classed as the bits of `m`, between two frames, are one frame of `m`. -/
theorem decSymbols_of_classes {d : DecState} (hcnt : d.cnt = 0) (q : List U16) {m : U16} {captured : List OokSymbol}
    (hlength : captured.length = 16)
    (hclass : ∀ (j : Nat) (h : j < captured.length),
      classify config captured[j] (j == 15) = if m.getLsbD (15 - j) then .one else .zero) :
    decSymbols config d q captured = decComplete config { d with acc := m } q :=
  decSymbols_of_finishesAs captured q (by simp [hcnt])
    { length := by simp [hcnt, hlength]
      bits := fun j hj => by simp [hcnt] at hj
      classes := fun j hj => by simpa [hcnt] using hclass j hj }

end Sys2Proof.Machine

/-! ### The encoder's own frame, converted (R66, R162) -/

namespace Sys2Proof.Machine

/-- A converted payload symbol is classed as its bit, the low duration exempt or not (R66, R105). -/
theorem classify_toTicks_bitSymbol (b last : Bool) :
    classify config (toTicks (bitSymbol config b)) last = if b then .one else .zero := by
  cases b <;> cases last <;> decide

/-- One captured payload is one frame of its message. -/
theorem decSymbols_capturedBits {d : DecState} (hcnt : d.cnt = 0) (q : List U16) (m : U16) :
    decSymbols config d q (capturedBits m) = decComplete config { d with acc := m } q := by
  refine decSymbols_of_classes hcnt q (by simp [capturedBits]) fun j hj => ?_
  simp [capturedBits, payloadSymbols, classify_toTicks_bitSymbol, payloadBit, bitIndex]

/-- DEC after a completed frame, whatever the validator did with it (R156). -/
theorem decComplete_dec (d : DecState) (q : List U16) :
    (decComplete config d q).dec = { d with last := d.acc, lastValid := true, cnt := 0 } := by
  rcases decComplete_cases d q with ⟨-, -, heq⟩ | ⟨-, -, heq⟩ | ⟨-, heq⟩ <;> rw [heq]

/-- A frame that the latch holds already is passed over (R157). -/
theorem decComplete_of_repeat (m : U16) (q : List U16) :
    decComplete config { cnt := 0, acc := m, last := m, lastValid := true } q =
      { dec := { cnt := 0, acc := m, last := m, lastValid := true }, ch := q, events := [] } := by
  simp [decComplete, isNew]

/-- A repetition as captured, its separator first (R27, R66). -/
def capturedRepeat (m : U16) : List OokSymbol := toTicks config.delay :: capturedBits m

/-- Once the latch holds the message, a repetition changes nothing (R157, R162). -/
theorem decSymbols_capturedRepeat_append (m : U16) (q : List U16) (rest : List OokSymbol) :
    decSymbols config { cnt := 0, acc := m, last := m, lastValid := true } q (capturedRepeat m ++ rest) =
      decSymbols config { cnt := 0, acc := m, last := m, lastValid := true } q rest := by
  have hdelay : classify config (toTicks config.delay) false = .invalid := by decide
  rw [capturedRepeat, List.cons_append, decSymbols_cons_of_invalid rfl q hdelay, decSymbols_append,
    decSymbols_capturedBits rfl, decComplete_of_repeat]
  rfl

/-- The captured frame is the header, a payload and three repetitions (R129). -/
theorem frame_map_toTicks (m : U16) :
    (frame config m).map toTicks =
      toTicks config.header :: (capturedBits m ++
        (capturedRepeat m ++ (capturedRepeat m ++ (capturedRepeat m ++ [])))) := by
  simp [frame, capturedRepeat, capturedBits]

/-- Between two frames, a captured frame is delivered by its first payload; the header and the repetitions change
nothing (R162). -/
theorem decSymbols_frame {d : DecState} (hcnt : d.cnt = 0) (q : List U16) (m : U16) :
    decSymbols config d q ((frame config m).map toTicks) = decComplete config { d with acc := m } q := by
  have hheader : classify config (toTicks config.header) false = .invalid := by decide
  have hdec : (decComplete config { d with acc := m } q).dec = { cnt := 0, acc := m, last := m, lastValid := true } :=
    decComplete_dec _ q
  rw [frame_map_toTicks, decSymbols_cons_of_invalid hcnt q hheader, decSymbols_append, decSymbols_capturedBits hcnt,
    hdec]
  simp only [decSymbols_capturedRepeat_append, decSymbols_nil]
  rw [← hdec, List.append_nil]

/-- When a message is new (R157). -/
theorem isNew_iff {d : DecState} {m : U16} : isNew d m = true ↔ d.lastValid = false ∨ m ≠ d.last := by
  simp [isNew]

/-- The frame validator's outcome in the machine is `frameDelivered` (R156). -/
theorem afterDec_decComplete (s : State) (m : U16) :
    s.afterDec (decComplete config { decBegin config s.dec with acc := m } s.ch) = frameDelivered s m := by
  have hnew : isNew { decBegin config s.dec with acc := m } m = isNew s.dec m := by simp [isNew]
  rcases decComplete_cases { decBegin config s.dec with acc := m } s.ch with
    ⟨hfresh, hroom, heq⟩ | ⟨hfresh, hroom, heq⟩ | ⟨hfresh, heq⟩ <;>
    rw [hnew] at hfresh <;> rw [heq]
  · simp [frameDelivered, State.afterDec, State.finish, hfresh, hroom]
  · simp [frameDelivered, State.afterDec, State.finish, hfresh, Nat.not_lt.2 hroom]
  · simp [frameDelivered, State.afterDec, State.finish, hfresh]

/-- The decoder on the encoder's own frame (R162). -/
theorem exec_loopBack_frame (s : State) (m : U16) : exec (loopBack (frame config m)) s = .next (frameDelivered s m) := by
  rw [← afterDec_decComplete, ← decSymbols_frame (decBegin_cnt config s.dec)]
  rfl

/-- R162's first outcome: a new message, and room in the channel. -/
theorem frameDelivered_of_new_of_room {s : State} {m : U16} (hnew : isNew s.dec m = true) (hroom : s.ch.length < 4) :
    (frameDelivered s m).ch = s.ch ++ [m] ∧ (frameDelivered s m).events = [.emit m] := by
  simp [frameDelivered, hnew, hroom]

/-- R162's second outcome: a new message, and a full channel. -/
theorem frameDelivered_of_new_of_full {s : State} {m : U16} (hnew : isNew s.dec m = true) (hfull : 4 ≤ s.ch.length) :
    (frameDelivered s m).ch = s.ch ∧ (frameDelivered s m).events = [.overflow m] := by
  simp [frameDelivered, hnew, Nat.not_lt.2 hfull]

/-- R162's third outcome: the message the latch holds. -/
theorem frameDelivered_of_repeat {s : State} {m : U16} (hold : isNew s.dec m = false) :
    (frameDelivered s m).ch = s.ch ∧ (frameDelivered s m).events = [] := by
  simp [frameDelivered, hold]

end Sys2Proof.Machine

/-! ### A frame sent in any number of calls (R124 to R128) -/

namespace Sys2Proof.Machine

/-- At the header sub-step stands the header (R26, R27). -/
theorem frameSymbolAt_base_of_header (c : Config) (m : U16) {step : EncStep} (h : step.kind = .header) :
    frameSymbolAt c m step.base = c.header := by
  cases step with
  | reset => rfl
  | _ => cases h

/-- At a delay sub-step stands a delay (R26, R27). -/
theorem frameSymbolAt_base_of_delay (c : Config) (m : U16) {step : EncStep} (h : step.kind = .delay) :
    frameSymbolAt c m step.base = c.delay := by
  cases step with
  | payload0Done | payload1Done | payload2Done => rfl
  | _ => cases h

/-- In a payload sub-step stands the bit at the resume position (R26, R27). -/
theorem frameSymbolAt_pos_of_payload (c : Config) (m : U16) {step : EncStep} (h : step.kind = .payload) (bit : Fin 16) :
    frameSymbolAt c m (pos step bit) = bitSymbol c (payloadBit c m bit.val) := by
  obtain ⟨r, hr, hbase⟩ : ∃ r < 4, step.base = 17 * r + 1 := by cases step <;> cases h <;> decide
  have hmod : (pos step bit - 1) % 17 = bit.val := by simp only [pos, hbase]; omega
  have hstart : pos step bit ≠ 0 := by simp only [pos, hbase]; omega
  have hdelay : ¬ (pos step bit = 17 ∨ pos step bit = 34 ∨ pos step bit = 51) := by simp only [pos, hbase]; omega
  rw [frameSymbolAt, if_neg hstart, if_neg hdelay, hmod]

/-- `enc_emit1` returns the frame's symbol at the cursor's position (R124). -/
theorem encEmit1_symbol {c : Config} {e e' : EncState} {sym : OokSymbol} (hlegal : e.BitLegal)
    (h : encEmit1 c e = some (sym, e')) : sym = frameSymbolAt c e.msg (pos e.step e.bit) := by
  have hpos (hkind : e.step.kind ≠ .payload) : pos e.step e.bit = e.step.base := by
    simp [pos, EncState.bit_eq_zero hlegal hkind]
  unfold encEmit1 at h
  split at h
  · cases h
  · cases hkind : e.step.kind with
    | header =>
      rw [hkind] at h
      cases h
      rw [hpos (by simp [hkind]), frameSymbolAt_base_of_header c e.msg hkind]
    | delay =>
      rw [hkind] at h
      cases h
      rw [hpos (by simp [hkind]), frameSymbolAt_base_of_delay c e.msg hkind]
    | payload =>
      rw [hkind] at h
      cases h
      exact (frameSymbolAt_pos_of_payload c e.msg hkind e.bit).symm
    | done => rw [hkind] at h; cases h

/-- `Payload3Done` stands after the last position, every other cursor at one (R26). -/
theorem EncState.BitLegal.pos_of_done {e : EncState} (h : e.BitLegal) (hdone : e.step = .payload3Done) :
    pos e.step e.bit = 68 := by
  have hbit : e.bit = 0 := EncState.bit_eq_zero h (by simp [hdone, EncStep.kind])
  simp [pos, hbit, hdone, EncStep.base]

theorem EncState.Inv.pos_lt {e : EncState} (h : e.Inv) : pos e.step e.bit < 68 := (positionIsBijection.1 e h).1

/-- `enc_emit1` is defined only at the cursors that may stand between two calls (R25, R124). -/
theorem encEmit1_inv {c : Config} {e e' : EncState} {sym : OokSymbol} (hlegal : e.BitLegal)
    (h : encEmit1 c e = some (sym, e')) : e.Inv :=
  EncState.inv_iff.2 ⟨fun hdone => by simp [encEmit1_eq_none.2 hdone] at h, hlegal⟩

/-- The frame from a position on. -/
theorem frame_drop (c : Config) (m : U16) {p : Nat} (hp : p < 68) :
    (frame c m).drop p = frameSymbolAt c m p :: (frame c m).drop (p + 1) := by
  have hlt : p < (frame c m).length := by rwa [frame_length]
  have hget : (frame c m)[p]? = some (frameSymbolAt c m p) := frameReadByPosition c m p hp
  rw [List.getElem?_eq_getElem hlt, Option.some.injEq] at hget
  rw [List.drop_eq_getElem_cons hlt, hget]

/-- ENC.ENCODE's loop emits the frame from the cursor on, as far as the space goes (R127). -/
theorem encLoop_symbols (c : Config) (n : Nat) {e : EncState} (hlegal : e.BitLegal) :
    (encLoop c n e).symbols = ((frame c e.msg).drop (pos e.step e.bit)).take n := by
  induction n generalizing e with
  | zero => cases hemit : encEmit1 c e <;> simp [encLoop, hemit]
  | succ n ih =>
    cases hemit : encEmit1 c e with
    | none =>
      have hdone := encEmit1_eq_none.1 hemit
      rw [encLoop_done c (n + 1) e hdone, hlegal.pos_of_done hdone, List.drop_of_length_le (frame_length c e.msg).le]
      rfl
    | some emitted =>
      obtain ⟨sym, e'⟩ := emitted
      obtain ⟨hlegal', hpos⟩ := encEmit1_advances hlegal hemit
      rw [encLoop_succ c n hemit, frame_drop c e.msg (encEmit1_inv hlegal hemit).pos_lt, List.take_succ_cons,
        ← encEmit1_symbol hlegal hemit, ← hpos, ← encEmit1_msg hemit, ← ih hlegal']

/-- Space that ends before the frame does is used up: `BufferFull` (R126). -/
theorem encLoop_status_of_short (c : Config) (n : Nat) {e : EncState} (hlegal : e.BitLegal)
    (hshort : pos e.step e.bit + n < 68) : (encLoop c n e).status = .bufferFull := by
  have hstep : e.step ≠ .payload3Done := fun hdone => by have := hlegal.pos_of_done hdone; omega
  induction n generalizing e with
  | zero => rw [encLoop_zero c e hstep]
  | succ n ih =>
    cases hemit : encEmit1 c e with
    | none => exact absurd (encEmit1_eq_none.1 hemit) hstep
    | some emitted =>
      obtain ⟨sym, e'⟩ := emitted
      obtain ⟨hlegal', hpos⟩ := encEmit1_advances hlegal hemit
      rw [encLoop_succ c n hemit]
      exact ih hlegal' (by omega) fun hdone => by have := hlegal'.pos_of_done hdone; omega

/-- The loop never writes `enc.msg` (R24). -/
theorem encLoop_msg (c : Config) (n : Nat) (e : EncState) : (encLoop c n e).enc.msg = e.msg := by
  induction n generalizing e with
  | zero => cases hemit : encEmit1 c e <;> simp [encLoop, hemit]
  | succ n ih =>
    cases hemit : encEmit1 c e with
    | none => rw [encLoop_done c (n + 1) e (encEmit1_eq_none.1 hemit)]
    | some emitted => rw [encLoop_succ c n hemit, ih emitted.2, encEmit1_msg hemit]

/-- A call of ENC.ENCODE with message `m` is in order here, and TXBUF is not known to be bounded. -/
structure State.CanSend (s : State) (m : U16) : Prop where
  cursor  : s.enc.Inv
  message : s.enc.step = .reset ∨ m = s.enc.msg
  space   : s.tx.free = none

/-- `t` is a state after `s` with the next `n` symbols of the frame of `m` sent (fewer at its end), and DEC and the
channel left alone. -/
structure Sent (m : U16) (n : Nat) (s t : State) : Prop where
  syms : t.tx.syms = s.tx.syms ++ ((frame config m).drop (pos s.enc.step s.enc.bit)).take n
  dec  : t.dec = s.dec
  ch   : t.ch = s.ch

theorem Sent.refl (m : U16) (s : State) : Sent m 0 s s := ⟨by simp, rfl, rfl⟩

/-- Two parts of a frame, sent one after the other (R128). -/
theorem Sent.trans {m : U16} {n k : Nat} {s t u : State} (hst : Sent m n s t)
    (hpos : pos t.enc.step t.enc.bit = pos s.enc.step s.enc.bit + n) (htu : Sent m k t u) : Sent m (n + k) s u where
  syms := by rw [htu.syms, hst.syms, hpos, List.take_add, List.drop_drop, List.append_assoc]
  dec  := htu.dec.trans hst.dec
  ch   := htu.ch.trans hst.ch

/-- One call sends its part, and if the frame does not end in it, leaves ENC that much further and ready for the next
call (R127). -/
theorem exec_encEncode_sends {s : State} {m : U16} (h : s.CanSend m) (n : Nat) :
    ∃ t, exec (.encEncode n m) s = .next t ∧ Sent m n s t ∧
      (pos s.enc.step s.enc.bit + n < 68 →
        t.CanSend m ∧ pos t.enc.step t.enc.bit = pos s.enc.step s.enc.bit + n) := by
  have hlegal : EncState.BitLegal { s.enc with msg := m } := (h.cursor.withMsg m).bitOnlyInPayload
  have hsyms := encLoop_symbols config n hlegal
  refine ⟨_, exec_encEncode_of_room h.cursor.notDone h.message rfl (TxBuf.hasRoom_of_none h.space _),
    ⟨by rw [State.finish_tx, hsyms], rfl, rfl⟩, fun hshort => ?_⟩
  have hfull := encLoop_status_of_short config n hlegal hshort
  rcases encLoop_ends config n _ hlegal with ⟨hcomplete, -⟩ | ⟨-, hinv, hpos⟩
  · rw [hfull] at hcomplete
    cases hcomplete
  · exact ⟨⟨hinv, .inr (encLoop_msg config n { s.enc with msg := m }).symm, by simp [h.space]⟩, hpos⟩

/-- Calls that do not reach the frame's end send their sum (R128). -/
theorem execAll_encodeCalls_sends (capacities : List Nat) {s : State} {m : U16} (h : s.CanSend m)
    (hshort : pos s.enc.step s.enc.bit + capacities.sum < 68) :
    ∃ t, execAll (encodeCalls m capacities) s = .next t ∧ Sent m capacities.sum s t ∧ t.CanSend m ∧
      pos t.enc.step t.enc.bit = pos s.enc.step s.enc.bit + capacities.sum := by
  induction capacities generalizing s with
  | nil => exact ⟨s, rfl, .refl m s, h, rfl⟩
  | cons n rest ih =>
    rw [List.sum_cons] at hshort ⊢
    obtain ⟨t, hexec, hsent, hnext⟩ := exec_encEncode_sends h n
    obtain ⟨hready, hpos⟩ := hnext (by omega)
    obtain ⟨u, hrest, hsent', hready', hpos'⟩ := ih hready (by omega)
    exact ⟨u, (execAll_cons_of_next hexec).trans hrest, hsent.trans hpos hsent', hready', by omega⟩

theorem execAll_append_of_next {is : List Instr} {s t : State} (h : execAll is s = .next t) (js : List Instr) :
    execAll (is ++ js) s = execAll js t := by
  induction is generalizing s with
  | nil => cases h; rfl
  | cons i is ih =>
    simp only [execAll] at h
    cases hexec : exec i s with
    | next s' =>
      rw [hexec] at h
      rw [List.cons_append, execAll_cons_of_next hexec, ih h]
    | fault f => rw [hexec] at h; cases h
    | refused r => rw [hexec] at h; cases h

theorem encodeCalls_append (m : U16) (as bs : List Nat) :
    encodeCalls m (as ++ bs) = encodeCalls m as ++ encodeCalls m bs := List.map_append

/-- A whole frame, split over any calls, reaches TXBUF whole, and DEC and the channel are left alone (R128). -/
theorem execAll_encodeCalls_whole {s : State} {m : U16} {capacities : List Nat} {last : Nat}
    (hstep : s.enc.step = .reset) (hbit : s.enc.bit = 0) (hfree : s.tx.free = none) (hshort : capacities.sum < 68)
    (hlong : 68 ≤ capacities.sum + last) :
    ∃ t, execAll (encodeCalls m (capacities ++ [last])) s = .next t ∧ t.tx.syms = s.tx.syms ++ frame config m ∧
      t.dec = s.dec ∧ t.ch = s.ch := by
  have hpos : pos s.enc.step s.enc.bit = 0 := by simp [pos, hstep, hbit, EncStep.base]
  have hready : s.CanSend m := ⟨EncState.inv_of_reset hstep hbit, .inl hstep, hfree⟩
  obtain ⟨u, hcalls, hsent, hready', hpos'⟩ := execAll_encodeCalls_sends capacities hready (by omega)
  obtain ⟨t, hlast, hsent', -⟩ := exec_encEncode_sends hready' last
  have hwhole : Sent m (capacities.sum + last) s t := hsent.trans hpos' hsent'
  refine ⟨t, ?_, ?_, hwhole.dec, hwhole.ch⟩
  · rw [encodeCalls_append, execAll_append_of_next hcalls]
    exact execAll_cons_of_next hlast
  · rw [hwhole.syms, hpos, List.drop_zero, List.take_of_length_le (by rwa [frame_length])]

/-- Settles O58: the calls append the whole frame, and the converted frame is delivered. -/
theorem encodeThenDecodeDelivers : Obligations.EncodeThenDecodeDelivers := by
  intro s m capacities last hstep hbit hfree hshort hlong
  obtain ⟨a, hcalls, hsyms, hdec, hch⟩ := execAll_encodeCalls_whole (m := m) hstep hbit hfree hshort hlong
  refine ⟨a, frameDelivered a m, hcalls, ?_, rfl, ?_⟩
  · rw [hsyms, List.drop_left, exec_loopBack_frame]
  · rw [← hdec, ← hch]
    refine ⟨fun hnew hroom => ?_, fun hnew hfull => ?_, fun hvalid hlast => ?_⟩
    · exact frameDelivered_of_new_of_room (isNew_iff.2 hnew) hroom
    · exact frameDelivered_of_new_of_full (isNew_iff.2 hnew) hfull
    · exact frameDelivered_of_repeat (by simp [isNew, hvalid, hlast])

end Sys2Proof.Machine

/-! ### The decoder by its table (R70, R72, R80, R82)

A request is decoded by the row its code word names, and the codes of the rows are the select codes 1 to 10 and four wider
words. -/

namespace Sys2Proof

/-- Only a row of the table decodes, and it reads its operands from the request's ports. -/
theorem exists_row_of_decode {r : Request} {i : Instr} (h : decode r = .ok i) :
    ∃ row ∈ codeTable, row.code = r.code ∧ row.read r.ports = i := by
  unfold decode at h
  split at h
  · next row hfind =>
    cases h
    exact ⟨row, List.mem_of_find?_eq_some hfind, by simpa using List.find?_some hfind, rfl⟩
  · cases h

/-- A code word that is in no row is rejected, whatever stands on the ports. -/
theorem decode_of_not_mem {r : Request} (h : ∀ row ∈ codeTable, row.code ≠ r.code) :
    decode r = .error (rejection r.code) := by
  have hfind : codeTable.find? (fun row => row.code == r.code) = none := by simpa using h
  simp only [decode, hfind]

/-- What a row reads from any ports at all is encoded under the row's own code. -/
theorem encode_read_code {row : CodeRow} (h : row ∈ codeTable) (p : Ports) : (encode (row.read p)).code = row.code := by
  fin_cases h <;> rfl

/-- The select codes in use are 1 to 10; the symbol words are wider than four bits. -/
theorem codeTable_code_range :
    ∀ row ∈ codeTable, 1 ≤ row.code.toNat ∧ row.code.toNat ≤ 10 ∨ 16 ≤ row.code.toNat := by decide

@[simp] theorem ofBool_beq_one (b : Bool) : (BitVec.ofBool b == 1#1) = b := by cases b <;> rfl

/-- Settles O8, row by row: a symbol on a port is packed and unpacked, a flag becomes one bit and is tested again, and
every other operand goes over its port as it is. -/
theorem decodeEncodeRoundTrip : Obligations.DecodeEncodeRoundTrip := by
  intro i
  cases i with
  | decDecode batch =>
    have hbatch : (batch.map packSymbol).map unpackSymbol = batch := by simp [Function.comp_def]
    calc decode (encode (.decDecode batch))
      _ = .ok (.decDecode ((batch.map packSymbol).map unpackSymbol)) := rfl
      _ = .ok (.decDecode batch) := by rw [hbatch]
  | decSym sym =>
    calc decode (encode (.decSym sym))
      _ = .ok (.decSym (unpackSymbol (packSymbol sym))) := rfl
      _ = .ok (.decSym sym) := by rw [unpackSymbol_packSymbol]
  | cmpClassify sym last =>
    calc decode (encode (.cmpClassify sym last))
      _ = .ok (.cmpClassify (unpackSymbol (packSymbol sym)) (BitVec.ofBool last == 1#1)) := rfl
      _ = .ok (.cmpClassify sym last) := by rw [unpackSymbol_packSymbol, ofBool_beq_one]
  | pmEnc channel on =>
    calc decode (encode (.pmEnc channel on))
      _ = .ok (.pmEnc channel (BitVec.ofBool on == 1#1)) := rfl
      _ = .ok (.pmEnc channel on) := by rw [ofBool_beq_one]
  | encEncode | encReset | decBegin | chPop | cmpWin | pmDec => rfl
  | zero | one | header | delay => rfl

/-- Settles O9: the row that decoded the request has the operation's code, and under that code the operation's own
ports are its encoding. -/
theorem decodedOperationFixesCode : Obligations.DecodedOperationFixesCode := by
  intro r i h
  obtain ⟨row, hrow, hcode, hread⟩ := exists_row_of_decode h
  have henc : (encode i).code = r.code := by rw [← hread, encode_read_code hrow, hcode]
  refine ⟨henc, ?_⟩
  rw [← henc]
  exact decodeEncodeRoundTrip i

/-- A table word whose request is an operation's encoding is read as that operation. -/
theorem decodeTableWord_of_encode {nbits w : Nat} {i : Instr} (h : requestOfWord nbits w = encode i) :
    decodeTableWord nbits w = some i := by
  simp only [decodeTableWord, h, decodeEncodeRoundTrip i]

/-- Settles O10: each table word, with zero ports, is the encoding of its row with zero operands. -/
theorem tableWordsDecode : Obligations.TableWordsDecode := by
  refine ⟨?_, ?_, ?_, ?_, ?_, ?_, ?_, ?_, ?_, ?_, ?_, ?_, ?_, ?_⟩ <;> exact decodeTableWord_of_encode rfl

/-- A select code of four bits outside 1 to 10 is rejected under its own name (R82). -/
theorem decode_of_unusedSelectCode {op : BitVec 4} (h : op = 0 ∨ 11 ≤ op.toNat) (p : Ports) :
    decode ⟨op.setWidth 32, p⟩ = .error (.unusedSelectCode op) := by
  have hlt : op.toNat < 16 := op.isLt
  have hwide : (op.setWidth 32).toNat = op.toNat := by rw [BitVec.toNat_setWidth]; omega
  have hunused : op.toNat = 0 ∨ 11 ≤ op.toNat := h.imp_left (by rintro rfl; rfl)
  have hrow : ∀ row ∈ codeTable, row.code ≠ op.setWidth 32 := by
    intro row hmem hcode
    have hrange := codeTable_code_range row hmem
    rw [hcode, hwide] at hrange
    omega
  calc decode ⟨op.setWidth 32, p⟩
    _ = .error (rejection (op.setWidth 32)) := decode_of_not_mem hrow
    _ = .error (.unusedSelectCode op) := by simp [rejection, hwide, hlt]

end Sys2Proof

/-! ### A step that takes a request the decoder rejects (R82) -/

namespace Sys2Proof.Machine

/-- A rejected code has no move, at any stage of startup (R82). -/
theorem step_of_decode_error {s : State} {r : Request} {rest : List Input} {e : DecodeError}
    (hpending : s.pending = .request r :: rest) (h : decode r = .error e) : step s = .refused (refusalOf e) := by
  have htaken : nextInput s = .rejected (refusalOf e) := by
    simp only [nextInput_of_pending_cons hpending, takeInput, h]
  simp only [step, htaken]

/-- Settles O11, by the decoder's answer to such a code. -/
theorem unusedSelectCodesRefused : Obligations.UnusedSelectCodesRefused :=
  fun _ _ p _ hop hpending => step_of_decode_error hpending (decode_of_unusedSelectCode hop p)

end Sys2Proof.Machine

/-! ### ENC's alphabet, and the words of its symbols (R72, R124)

The alphabet is closed from every cursor, legal or not: each sub-step of `enc_emit1` names its symbol. -/

namespace Sys2Proof

/-- The four symbols of R72. -/
def Config.alphabet (c : Config) : List OokSymbol := [c.zero, c.one, c.header, c.delay]

end Sys2Proof

namespace Sys2Proof.Machine

theorem bitSymbol_mem_alphabet (c : Config) (b : Bool) : bitSymbol c b ∈ c.alphabet := by
  cases b <;> simp [bitSymbol, Config.alphabet]

/-- `enc_emit1` returns a symbol of the alphabet (R72, R124). -/
theorem encEmit1_mem_alphabet {c : Config} {e e' : EncState} {sym : OokSymbol} (h : encEmit1 c e = some (sym, e')) :
    sym ∈ c.alphabet := by
  unfold encEmit1 at h
  split at h
  · cases h
  · split at h
    · cases h; simp [Config.alphabet]
    · cases h; simp [Config.alphabet]
    · cases h; exact bitSymbol_mem_alphabet c _
    · cases h

/-- The loop of ENC.ENCODE emits nothing else, over any space. -/
theorem encLoop_mem_alphabet (c : Config) (n : Nat) (e : EncState) :
    ∀ sym ∈ (encLoop c n e).symbols, sym ∈ c.alphabet := by
  induction n generalizing e with
  | zero => cases hemit : encEmit1 c e <;> simp [encLoop, hemit]
  | succ n ih =>
    cases hemit : encEmit1 c e with
    | none => simp [encLoop, hemit]
    | some emitted =>
      rw [encLoop_succ c n hemit]
      exact List.forall_mem_cons.2 ⟨encEmit1_mem_alphabet hemit, ih emitted.2⟩

/-- A message with both bit values has every symbol in its frame. -/
theorem alphabet_subset_frame : ∀ sym ∈ config.alphabet, sym ∈ frame config 0x8000 := by decide

/-- Settles O23: the loop stays in the alphabet, and from reset one call sends a whole frame that has all of it. -/
theorem encoderAlphabet : Obligations.EncoderAlphabet := by
  constructor
  · intro s t capacity m h
    obtain ⟨-, -, run, rfl, -, rfl⟩ := execEncEncode_eq_next h
    exact ⟨_, rfl, encLoop_mem_alphabet config capacity _⟩
  · intro sym hsym
    have hready : State.reset.CanSend 0x8000 := ⟨EncState.inv_of_reset rfl rfl, .inl rfl, rfl⟩
    obtain ⟨t, hexec, hsent, -⟩ := exec_encEncode_sends hready 68
    have hframe : t.tx.syms = frame config 0x8000 := by
      rw [hsent.syms]
      exact List.take_of_length_le (frame_length config 0x8000).le
    exact ⟨68, 0x8000, t, hexec, hframe ▸ alphabet_subset_frame sym hsym⟩

/-- The table's symbol words and the symbols they stand for (R72). -/
def symbolWords : List (Instr × OokSymbol) :=
  [(.zero, config.zero), (.one, config.one), (.header, config.header), (.delay, config.delay)]

theorem exec_of_mem_symbolWords {i : Instr} {sym : OokSymbol} (h : (i, sym) ∈ symbolWords) (s : State) :
    exec i s = appendSymbol sym s := by
  simp only [symbolWords, List.mem_cons, List.not_mem_nil, or_false, Prod.mk.injEq] at h
  rcases h with ⟨rfl, rfl⟩ | ⟨rfl, rfl⟩ | ⟨rfl, rfl⟩ | ⟨rfl, rfl⟩ <;> rfl

/-- Where a place is left, a symbol word takes one and changes nothing else but the outputs. -/
theorem appendSymbol_of_space {s : State} (h : s.tx.free ≠ some 0) (sym : OokSymbol) :
    appendSymbol sym s = .next
      { s with tx := { free := s.tx.free.map (· - 1), syms := s.tx.syms ++ [sym] }, result := .none, events := [] } := by
  have htx : txAppend s.tx sym = some { free := s.tx.free.map (· - 1), syms := s.tx.syms ++ [sym] } :=
    txAppend_eq_some.2 ⟨h, rfl, rfl⟩
  rw [appendSymbol_of_txAppend htx]
  simp [State.finish]

/-- Without a place left a symbol word is refused (U4). -/
theorem appendSymbol_of_full {s : State} (h : s.tx.free = some 0) (sym : OokSymbol) :
    appendSymbol sym s = .refused .txbufOverrun := by
  simp only [appendSymbol, txAppend, h, callerError]

/-- Settles O54: every symbol word is the append of its symbol. -/
theorem symbolWordsAppend : Obligations.SymbolWordsAppend := by
  intro s i sym h
  rw [exec_of_mem_symbolWords h]
  exact ⟨fun hspace => appendSymbol_of_space hspace sym, fun hfull => appendSymbol_of_full hfull sym⟩

end Sys2Proof.Machine

/-! ### The drains of R86

ENC.DRAIN is as many calls as still fit before the frame's end, and one more that reaches it; CH.DRAIN is one pop for each
pending message, and one more that finds none. -/

namespace Sys2Proof.Machine

/-- The loop with space for the rest of the frame completes it and puts the cursor back (R126). -/
theorem encLoop_completes_of_long (c : Config) (n : Nat) {e : EncState} (hlegal : e.BitLegal)
    (hlong : 68 ≤ pos e.step e.bit + n) :
    (encLoop c n e).status = .frameComplete ∧ (encLoop c n e).enc = { e with step := .reset, bit := 0 } := by
  rcases encLoop_ends c n e hlegal with hcomplete | ⟨-, hinv, hpos⟩
  · exact hcomplete
  · have := hinv.pos_lt
    omega

/-- `t` answers a call that completed a frame of `m`: the status says so, and the cursor is at the start (R126). -/
def State.Completed (t : State) (m : U16) : Prop :=
  (∃ k syms, t.result = .encoded k .frameComplete syms) ∧ t.enc = { step := .reset, bit := 0, msg := m }

/-- A call of ENC.ENCODE with space for the rest of the frame answers such a state. -/
theorem completed_of_exec_encEncode {s t : State} {n : Nat} {m : U16} (hinv : s.enc.Inv)
    (hlong : 68 ≤ pos s.enc.step s.enc.bit + n) (h : exec (.encEncode n m) s = .next t) : t.Completed m := by
  obtain ⟨-, -, run, rfl, -, rfl⟩ := execEncEncode_eq_next h
  obtain ⟨hstatus, henc⟩ := encLoop_completes_of_long config n (hinv.withMsg m).bitOnlyInPayload hlong
  exact ⟨⟨_, _, by rw [State.finish_result, hstatus]⟩, henc⟩

/-- Calls that do not reach the frame's end, then one that does, send all that is left of it and complete it (R128). -/
theorem execAll_encodeCalls_completes {s : State} {m : U16} {capacities : List Nat} {last : Nat} (h : s.CanSend m)
    (hshort : pos s.enc.step s.enc.bit + capacities.sum < 68)
    (hlong : 68 ≤ pos s.enc.step s.enc.bit + capacities.sum + last) :
    ∃ t, execAll (encodeCalls m (capacities ++ [last])) s = .next t ∧ t.Completed m ∧
      t.tx.syms = s.tx.syms ++ (frame config m).drop (pos s.enc.step s.enc.bit) := by
  obtain ⟨u, hcalls, hsent, hready, hpos⟩ := execAll_encodeCalls_sends capacities h hshort
  obtain ⟨t, hlast, hsent', -⟩ := exec_encEncode_sends hready last
  refine ⟨t, ?_, completed_of_exec_encEncode hready.cursor (by omega) hlast, ?_⟩
  · rw [encodeCalls_append, execAll_append_of_next hcalls]
    exact execAll_cons_of_next hlast
  · rw [(hsent.trans hpos hsent').syms, List.take_of_length_le (by rw [List.length_drop, frame_length]; omega)]

/-- The quotient rounded up is one more than the number of whole parts before the last symbol due. -/
theorem ceilDiv_eq_succ {rem n : Nat} (hn : 1 ≤ n) (hrem : 1 ≤ rem) :
    ∃ k, (rem + n - 1) / n = k + 1 ∧ k * n < rem ∧ rem ≤ k * n + n := by
  have hle : (rem - 1) / n * n ≤ rem - 1 := Nat.div_mul_le_self _ _
  have hlt : rem - 1 < (rem - 1) / n * n + n := Nat.lt_div_mul_add hn
  have hsum : rem + n - 1 = rem - 1 + n := by omega
  exact ⟨(rem - 1) / n, by rw [hsum, Nat.add_div_right _ hn], by omega, by omega⟩

/-- Settles O25: all calls but the last stop short of the frame's end, and the last reaches it. -/
theorem encodeDrainCompletes : Obligations.EncodeDrainCompletes := by
  intro s n m hn hinv hmsg hfree
  have hpos := hinv.pos_lt
  obtain ⟨k, hcalls, hshort, hlong⟩ := ceilDiv_eq_succ (rem := 68 - pos s.enc.step s.enc.bit) hn (by omega)
  have hsum : (List.replicate k n).sum = k * n := by simp
  obtain ⟨t, hexec, ⟨⟨written, syms, hresult⟩, henc⟩, hsyms⟩ :=
    execAll_encodeCalls_completes (capacities := List.replicate k n) (last := n) ⟨hinv, hmsg, hfree⟩
      (by omega) (by omega)
  refine ⟨t, written, syms, ?_, hresult, henc, hsyms⟩
  rwa [encDrain, hcalls, List.replicate_succ']

/-- CH.POP on a channel with a message pending (R182). -/
theorem exec_chPop_of_cons {s : State} {m : U16} {q : List U16} (h : s.ch = m :: q) :
    exec .chPop s = .next (State.finish { s with ch := q } (.popped (some m)) []) := by
  simp only [exec, execChPop, h, chPop]

/-- CH.POP on an empty channel (R182). -/
theorem exec_chPop_of_nil {s : State} (h : s.ch = []) :
    exec .chPop s = .next (State.finish { s with ch := [] } (.popped none) []) := by
  simp only [exec, execChPop, h, chPop]

/-- A pop that returns a message hands it to the consumer before all later ones. -/
theorem poppedBy_cons_of_popped {i : Instr} {s t : State} {m : U16} (h : exec i s = .next t)
    (hresult : t.result = .popped (some m)) (is : List Instr) : poppedBy (i :: is) s = m :: poppedBy is t := by
  simp only [poppedBy, h, hresult]

/-- One pop more than the messages pending empties the channel in order. -/
theorem execAll_chPops (q : List U16) {s : State} (h : s.ch = q) :
    ∃ t, execAll (List.replicate (q.length + 1) .chPop) s = .next t ∧ t.ch = [] ∧ t.result = .popped none ∧
      poppedBy (List.replicate (q.length + 1) .chPop) s = q := by
  induction q generalizing s with
  | nil =>
    have hpop := exec_chPop_of_nil h
    exact ⟨_, execAll_cons_of_next hpop, rfl, rfl, by simp [poppedBy, hpop]⟩
  | cons m q ih =>
    have hpop := exec_chPop_of_cons h
    obtain ⟨t, hexec, hch, hresult, hpopped⟩ := ih (s := State.finish { s with ch := q } (.popped (some m)) []) rfl
    refine ⟨t, (execAll_cons_of_next hpop).trans hexec, hch, hresult, ?_⟩
    rw [List.length_cons, List.replicate_succ, poppedBy_cons_of_popped hpop rfl, hpopped]

/-- Settles O49, by induction on the messages pending. -/
theorem channelDrainEmpties : Obligations.ChannelDrainEmpties := fun s => execAll_chPops s.ch rfl

end Sys2Proof.Machine

/-! ### Any capture inside the windows is a frame (R106, R154 to R156) -/

namespace Sys2Proof.Machine

/-- Settles O36: the sixteen symbols hand their message to the frame validator, whose outcome in the machine is
`frameDelivered`. -/
theorem decoderToleratesTimingNoise : Obligations.DecoderToleratesTimingNoise := by
  intro s m captured hlength hclass
  have hrun : decSymbols config (decBegin config s.dec) s.ch captured =
      decComplete config { decBegin config s.dec with acc := m } s.ch :=
    decSymbols_of_classes (decBegin_cnt config s.dec) s.ch hlength hclass
  simp only [exec, execDecDecode, hrun, afterDec_decComplete]

end Sys2Proof.Machine

/-! ### The comparators' windows as raw ranges (R102, R105, R106, R109, R110)

`win_iff` doubles the duration. Halved, a window is one interval of durations, and the bank's four windows are that
interval at four templates. -/

namespace Sys2Proof.Machine

/-- The window as an interval of raw durations, its lower bound rounded up and its upper bound down (R110). -/
theorem win_iff_interval (d : Duration) (t : Nat) :
    win config d t = true ↔ (t - 200 + 1) / 2 ≤ d.toNat ∧ d.toNat ≤ (t + 200) / 2 := by
  rw [win_iff]
  omega

/-- Comparator `Zh` (R105). -/
theorem winZeroHigh_iff (sym : OokSymbol) :
    winZeroHigh config sym = true ↔ 32 ≤ sym.high.toNat ∧ sym.high.toNat ≤ 231 := win_iff_interval sym.high 263

/-- Comparator `Zl` (R105). -/
theorem winZeroLow_iff (sym : OokSymbol) :
    winZeroLow config sym = true ↔ 190 ≤ sym.low.toNat ∧ sym.low.toNat ≤ 390 := win_iff_interval sym.low 580

/-- Comparator `Oh` (R105). -/
theorem winOneHigh_iff (sym : OokSymbol) :
    winOneHigh config sym = true ↔ 243 ≤ sym.high.toNat ∧ sym.high.toNat ≤ 442 := win_iff_interval sym.high 685

/-- Comparator `Ol`: its lower bound is negative and rules out nothing (R104, R105). -/
theorem winOneLow_iff (sym : OokSymbol) : winOneLow config sym = true ↔ sym.low.toNat ≤ 179 :=
  (win_iff_interval sym.low 158).trans (and_iff_right (Nat.zero_le _))

/-- Settles O27, comparator by comparator. -/
theorem comparatorBankWindows : Obligations.ComparatorBankWindows :=
  fun sym => ⟨winZeroHigh_iff sym, winZeroLow_iff sym, winOneHigh_iff sym, winOneLow_iff sym⟩

/-- The window over the integers, where its lower bound may be negative (R102, R104). -/
theorem win_eq_decide (d : Duration) (t : Nat) :
    win config d t =
      decide ((t : Int) - 200 ≤ 2 * (d.toNat : Int) ∧ 2 * (d.toNat : Int) ≤ (t : Int) + 200) := by
  rw [Bool.eq_iff_iff, win_iff, decide_eq_true_iff]
  omega

/-- An operation without events adds nothing to the history (R206). -/
theorem State.finish_no_events (s : State) (r : Result) : s.finish r [] = { s with result := r, events := [] } := by
  simp [State.finish]

/-- Settles O26: the operation hands over `win`, and `win` is its two bounds. -/
theorem windowComparatorResult : Obligations.WindowComparatorResult := by
  intro s d t
  calc exec (.cmpWin d t) s
    _ = .next (s.finish (.window (win config d t)) []) := rfl
    _ = _ := by rw [State.finish_no_events, win_eq_decide]

/-- A template's own duration in ticks, rounded down, is in its window, where a duration can hold it (R110). -/
theorem win_half_template {t : Nat} (h : t / 2 < 65536) : win config (BitVec.ofNat 16 (t / 2)) t = true := by
  have htoNat : (BitVec.ofNat 16 (t / 2)).toNat = t / 2 := by rw [BitVec.toNat_ofNat, Nat.mod_eq_of_lt h]
  rw [win_iff, htoNat]
  omega

/-- The duration 0 is in a window exactly when its lower bound is not positive (R104, R110). -/
theorem win_zero_iff (t : Nat) : win config 0 t = true ↔ t ≤ 200 := by
  have hzero : (0 : Duration).toNat = 0 := rfl
  rw [win_iff, hzero]
  omega

/-- Settles O28: the interval, a duration inside it, and when it begins at 0. -/
theorem windowIsOneInterval : Obligations.WindowIsOneInterval :=
  ⟨win_iff_interval, fun _ => win_half_template, win_zero_iff⟩

/-- The classifier by R109's table: the bank's raw ranges, zero tested first, the low duration exempt when `last`. -/
theorem classify_eq_table (sym : OokSymbol) (last : Bool) :
    classify config sym last =
      if (32 ≤ sym.high.toNat ∧ sym.high.toNat ≤ 231) ∧
          (last = true ∨ 190 ≤ sym.low.toNat ∧ sym.low.toNat ≤ 390) then .zero
      else if (243 ≤ sym.high.toNat ∧ sym.high.toNat ≤ 442) ∧ (last = true ∨ sym.low.toNat ≤ 179) then .one
      else .invalid := by
  simp only [classify, Bool.and_eq_true, Bool.or_eq_true, winZeroHigh_iff, winZeroLow_iff, winOneHigh_iff, winOneLow_iff]

/-- Settles O29: the operation hands over `classify`, and `classify` is the table. -/
theorem classifierDecisionTable : Obligations.ClassifierDecisionTable := by
  intro s sym last
  calc exec (.cmpClassify sym last) s
    _ = .next (s.finish (.classified (classify config sym last)) []) := rfl
    _ = _ := by rw [State.finish_no_events, classify_eq_table]

end Sys2Proof.Machine

/-! ### The frame's shape and one symbol of it (R124, R129) -/

namespace Sys2Proof.Machine

/-- A payload is made of the two bit symbols (R73, R129). -/
theorem mem_payloadSymbols {c : Config} {m : U16} {sym : OokSymbol} (h : sym ∈ payloadSymbols c m) :
    ∃ b, sym = bitSymbol c b := by
  obtain ⟨j, -, rfl⟩ := List.mem_map.1 h
  exact ⟨_, rfl⟩

/-- A test with one answer for both bit symbols counts all of a payload or nothing of it. -/
theorem countP_payloadSymbols {c : Config} {p : OokSymbol → Bool} {v : Bool} (h : ∀ b, p (bitSymbol c b) = v)
    (m : U16) : (payloadSymbols c m).countP p = if v then 16 else 0 := by
  have hall : ∀ sym ∈ payloadSymbols c m, p sym = v := by
    intro sym hmem
    obtain ⟨b, rfl⟩ := mem_payloadSymbols hmem
    exact h b
  cases v with
  | false => exact List.countP_eq_zero.2 fun sym hmem => by simp [hall sym hmem]
  | true => exact (List.countP_eq_length.2 hall).trans (payloadSymbols_length c m)

/-- The same count over a frame: one header, three delays, four payloads (R129). -/
theorem countP_frame {c : Config} {p : OokSymbol → Bool} {v : Bool} (h : ∀ b, p (bitSymbol c b) = v) (m : U16) :
    (frame c m).countP p = [c.header].countP p + 3 * [c.delay].countP p + 4 * (if v then 16 else 0) := by
  simp only [frame, List.countP_append, countP_payloadSymbols h]
  omega

/-- Payload symbol `j` is message bit `15 - j`: most significant first (R53, R73). -/
theorem bitSymbol_payloadBit (m : U16) (j : Nat) :
    bitSymbol config (payloadBit config m j) = if m.getLsbD (15 - j) then ⟨685, 158⟩ else ⟨263, 580⟩ := by
  simp [bitSymbol, payloadBit, bitIndex]

/-- Settles O12: each of the three tests counted has one answer for both bit symbols. -/
theorem frameHasSourceShape : Obligations.FrameHasSourceShape := by
  intro m
  refine ⟨rfl, fun j => ?_, payloadSymbols_length config m, frame_length config m, ?_, ?_, ?_⟩
  · rw [getElem?_payloadSymbols config m j.isLt, bitSymbol_payloadBit]
  · exact countP_frame (v := false) (by decide) m
  · exact countP_frame (v := false) (by decide) m
  · exact countP_frame (v := true) (by decide) m

/-- Settles O15: off `Payload3Done` `enc_emit1` is defined, and it moves on by one position. -/
theorem emitReturnsSymbolAtPosition : Obligations.EmitReturnsSymbolAtPosition := by
  intro c e hinv
  have hlegal : e.BitLegal := hinv.bitOnlyInPayload
  cases hemit : encEmit1 c e with
  | none => exact absurd (encEmit1_eq_none.1 hemit) hinv.notDone
  | some emitted =>
    obtain ⟨sym, e'⟩ := emitted
    obtain ⟨hlegal', hpos⟩ := encEmit1_advances hlegal hemit
    refine ⟨e', by rw [encEmit1_symbol hlegal hemit], hpos, encEmit1_msg hemit, ?_⟩
    by_cases hdone : e'.step = .payload3Done
    · exact .inl hdone
    · exact .inr (EncState.inv_iff.2 ⟨hdone, hlegal'⟩)

end Sys2Proof.Machine

/-! ### ENC.RESET, and the refusal of a changed message (R130, R132) -/

namespace Sys2Proof.Machine

/-- With a frame in flight ENC.ENCODE takes no message but that frame's (R132). -/
theorem encStart_of_changed {e : EncState} {m : U16} (hreset : e.step ≠ .reset) (hdone : e.step ≠ .payload3Done)
    (hmsg : m ≠ e.msg) : encStart e m = .error .messageChangedMidFrame := by
  rw [encStart, if_neg hreset, if_neg hdone, if_neg hmsg]

/-- Settles O18: the message is checked before the capacity is looked at. -/
theorem encodeMessageChangeRefused : Obligations.EncodeMessageChangeRefused := by
  intro s capacity m hreset hdone hmsg
  simp only [exec, execEncEncode, encStart_of_changed hreset hdone hmsg, callerError]

/-- Settles O21: the operation writes the cursor, and without events the history stays. -/
theorem encResetClearsCursor : Obligations.EncResetClearsCursor := by
  intro s
  calc exec .encReset s
    _ = .next (State.finish { s with enc := { s.enc with step := .reset, bit := 0 } } .none []) := rfl
    _ = _ := by rw [State.finish_no_events]

end Sys2Proof.Machine

/-! ### ENC.ENCODE in closed form, and whole frames from it (R127, R128, R130) -/

namespace Sys2Proof.Machine

/-- The legal cursor at a position is the one `cursorAt` names (R26). -/
theorem EncState.Inv.eq_cursorAt {e : EncState} (h : e.Inv) {p : Nat} (hp : pos e.step e.bit = p) :
    e = { step := (cursorAt p).1, bit := (cursorAt p).2, msg := e.msg } := by
  rw [← hp, (positionIsBijection.1 e h).2]

/-- The loop with less space than the rest of the frame needs uses all of it (R125, R126). -/
theorem encLoop_fills_of_short (c : Config) (n : Nat) {e : EncState} (hlegal : e.BitLegal)
    (hshort : pos e.step e.bit + n < 68) :
    (encLoop c n e).status = .bufferFull ∧ (encLoop c n e).enc =
      { step := (cursorAt (pos e.step e.bit + n)).1, bit := (cursorAt (pos e.step e.bit + n)).2, msg := e.msg } := by
  have hfull := encLoop_status_of_short c n hlegal hshort
  rcases encLoop_ends c n e hlegal with ⟨hcomplete, -⟩ | ⟨-, hinv, hpos⟩
  · rw [hfull] at hcomplete
    cases hcomplete
  · exact ⟨hfull, by rw [hinv.eq_cursorAt hpos, encLoop_msg]⟩

/-- The loop emits as many symbols as there is space for and the frame still has (R125, R127). -/
theorem encLoop_symbols_length (c : Config) (n : Nat) {e : EncState} (hlegal : e.BitLegal) :
    (encLoop c n e).symbols.length = min n (68 - pos e.step e.bit) := by
  rw [encLoop_symbols c n hlegal, List.length_take, List.length_drop, frame_length]

/-- Settles O16: what the loop emits is the frame from the cursor on, and it ends in one of two ways, told apart by
whether the space reaches the frame's end. -/
theorem encodeClosedForm : Obligations.EncodeClosedForm := by
  intro s capacity m hinv hmsg p n symbols complete hroom
  have hlegal : EncState.BitLegal { s.enc with msg := m } := (hinv.withMsg m).bitOnlyInPayload
  have hlength : (encLoop config capacity { s.enc with msg := m }).symbols.length = n :=
    encLoop_symbols_length config capacity hlegal
  have hsymbols : (encLoop config capacity { s.enc with msg := m }).symbols = symbols := by
    rw [← List.take_length (l := EncRun.symbols _), hlength, encLoop_symbols config capacity hlegal, List.take_take,
      Nat.min_eq_left (Nat.min_le_left _ _)]
  rw [exec_encEncode_of_room hinv.notDone hmsg rfl (by rwa [hlength]), State.finish_no_events, hlength, hsymbols]
  by_cases hlong : 68 - p ≤ capacity
  · have hreach : 68 ≤ p + capacity := by omega
    obtain ⟨hstatus, henc⟩ := encLoop_completes_of_long config capacity hlegal hreach
    simp [hstatus, henc, complete, hlong]
  · have hshort : p + capacity < 68 := by omega
    obtain ⟨hstatus, henc⟩ := encLoop_fills_of_short config capacity hlegal hshort
    simp [hstatus, henc, complete, hlong, p]

/-- From position 0 a call with space for 68 symbols sends the whole frame (R127, R129). -/
theorem exec_encEncode_whole {s : State} {capacity : Nat} (hstep : s.enc.step = .reset) (hbit : s.enc.bit = 0)
    (hlong : 68 ≤ capacity) (hroom : s.tx.hasRoom 68) (m : U16) :
    ∃ t, exec (.encEncode capacity m) s = .next t ∧ t.tx.syms = s.tx.syms ++ frame config m ∧
      t.result = .encoded 68 .frameComplete (frame config m) := by
  have hpos : pos s.enc.step s.enc.bit = 0 := by simp [pos, hstep, hbit, EncStep.base]
  have hn : min capacity (68 - pos s.enc.step s.enc.bit) = 68 := by omega
  have hframe : (frame config m).take 68 = frame config m := List.take_of_length_le (frame_length config m).le
  refine ⟨_, encodeClosedForm s capacity m (EncState.inv_of_reset hstep hbit) (.inl hstep) (by rwa [hn]), ?_, ?_⟩
  · rw [hn, hpos, List.drop_zero, hframe]
  · simp [hpos, hframe, hlong]

/-- Settles O22: ENC.RESET puts the cursor at position 0, whatever frame was in flight. -/
theorem frameAfterResetIsWhole : Obligations.FrameAfterResetIsWhole := by
  intro s capacity m hlong hroom
  have hreset := encResetClearsCursor s
  obtain ⟨t, hencode, hsyms, hresult⟩ := exec_encEncode_whole
    (s := { s with enc := { step := .reset, bit := 0, msg := s.enc.msg }, result := .none, events := [] })
    rfl rfl hlong hroom m
  exact ⟨t, (execAll_cons_of_next hreset).trans (execAll_cons_of_next hencode), hsyms, hresult⟩

/-- Calls that do not reach the frame's end send their part of it, and the last of them answers `BufferFull` (R128). -/
theorem execAll_encodeCalls_fills {s : State} {m : U16} {capacities : List Nat} {last : Nat} (h : s.CanSend m)
    (hshort : pos s.enc.step s.enc.bit + (capacities ++ [last]).sum < 68) :
    ∃ t k syms, execAll (encodeCalls m (capacities ++ [last])) s = .next t ∧ t.result = .encoded k .bufferFull syms ∧
      t.tx.syms = s.tx.syms ++ ((frame config m).drop (pos s.enc.step s.enc.bit)).take (capacities ++ [last]).sum := by
  rw [List.sum_append, List.sum_singleton] at hshort ⊢
  obtain ⟨u, hcalls, hsent, hready, hpos⟩ := execAll_encodeCalls_sends capacities h (by omega)
  obtain ⟨t, hlast, hsent', -⟩ := exec_encEncode_sends hready last
  obtain ⟨-, -, run, rfl, -, rfl⟩ := execEncEncode_eq_next hlast
  have hstatus := encLoop_status_of_short config last (hready.cursor.withMsg m).bitOnlyInPayload
    (by simp only [hpos]; omega)
  refine ⟨_, _, _, ?_, by rw [State.finish_result, hstatus], (hsent.trans hpos hsent').syms⟩
  rw [encodeCalls_append, execAll_append_of_next hcalls]
  exact execAll_cons_of_next hlast

/-- Settles O17: every initial part of the calls stops short of the frame's end, and all of them reach it. -/
theorem encodeIsResumable : Obligations.EncodeIsResumable := by
  intro s m capacities last hstep hbit hfree hshort hlong
  have hpos : pos s.enc.step s.enc.bit = 0 := by simp [pos, hstep, hbit, EncStep.base]
  have hready : s.CanSend m := ⟨EncState.inv_of_reset hstep hbit, .inl hstep, hfree⟩
  constructor
  · intro k hk
    have hsplit := List.sum_take_add_sum_drop capacities (k + 1)
    rw [List.take_succ_eq_append_getElem hk] at hsplit ⊢
    obtain ⟨u, n, syms, hcalls, hresult, hsyms⟩ :=
      execAll_encodeCalls_fills (capacities := capacities.take k) (last := capacities[k]) hready (by omega)
    rw [hpos, List.drop_zero] at hsyms
    exact ⟨u, n, syms, hcalls, hresult, hsyms⟩
  · obtain ⟨t, hcalls, ⟨⟨n, syms, hresult⟩, henc⟩, hsyms⟩ :=
      execAll_encodeCalls_completes (capacities := capacities) (last := last) hready (by omega) (by omega)
    rw [hpos, List.drop_zero] at hsyms
    exact ⟨t, n, syms, hcalls, hresult, hsyms, henc⟩

end Sys2Proof.Machine

/-! ### One DEC.SYM, and one DEC.BEGIN, as operations of the machine (R152 to R158)

Each of DEC.SYM's three outcomes is a rule of its own: the run is abandoned, one bit is written, or the frame completes. -/

namespace Sys2Proof.Machine

/-- The symbol-validity failure (R158). -/
theorem decSymbol_of_class_invalid {d : DecState} (q : List U16) {sym : OokSymbol}
    (h : classify config sym (d.cnt.val == 15) = .invalid) : decSymbol config d q sym = decAbandon config d q := by
  rw [decSymbol_eq, h]
  rfl

/-- A valid symbol's class is its bit (R73, R153). -/
theorem decSymbol_of_class_bit {d : DecState} (q : List U16) {sym : OokSymbol} {b : Bool}
    (h : classify config sym (d.cnt.val == 15) = if b then .one else .zero) :
    decSymbol config d q sym = decAccept config d q b := by
  rw [decSymbol_eq, h]
  cases b <;> rfl

/-- Every valid class is a bit's (R73). -/
theorem exists_bit_of_class_valid {k : Classification} (h : k ≠ .invalid) :
    ∃ b : Bool, k = if b then .one else .zero := by
  cases k with
  | zero => exact ⟨false, rfl⟩
  | one => exact ⟨true, rfl⟩
  | invalid => exact absurd rfl h

/-- DEC.BEGIN's writes on this machine, which keeps the latch (R152). -/
theorem decBegin_config (d : DecState) : decBegin config d = { d with cnt := 0, acc := 0 } := by simp [decBegin]

/-- Settles O30: the two writes, and no event to record. -/
theorem decBeginClearsRun : Obligations.DecBeginClearsRun := by
  intro s
  calc exec .decBegin s
    _ = .next (State.finish { s with dec := decBegin config s.dec } .none []) := rfl
    _ = _ := by rw [State.finish_no_events, decBegin_config]

/-- Settles O31, by the symbol-validity failure. -/
theorem invalidSymbolAbandonsRun : Obligations.InvalidSymbolAbandonsRun := by
  intro s sym hcnt hclass ev
  rw [exec_decSym (by omega), decSymbol_of_class_invalid s.ch hclass]
  rfl

/-- A decoder run without events adds nothing to the history (R206). -/
theorem State.afterDec_no_events (s : State) (d : DecState) (q : List U16) :
    s.afterDec { dec := d, ch := q, events := [] } = { s with dec := d, ch := q, result := .none, events := [] } := by
  simp [State.afterDec, State.finish]

/-- Settles O32, by the write of one accumulator bit. -/
theorem validSymbolWritesOneBit : Obligations.ValidSymbolWritesOneBit := by
  intro s sym b hcnt hclass
  have hlast : (s.dec.cnt.val == 15) = false := by simp; omega
  refine ⟨placeBit config s.dec.acc s.dec.cnt.val b, ⟨s.dec.cnt.val + 1, by omega⟩, rfl,
    fun j => getLsbD_placeBit _ _ j b, ?_⟩
  rw [exec_decSym (by omega), decSymbol_of_class_bit s.ch (by rwa [hlast]), decAccept_of_lt _ _ _ _ hcnt,
    State.afterDec_no_events]

/-- The frame validator does not read the count. -/
theorem decComplete_withCnt (c : Config) (d : DecState) (cnt : Fin 17) (q : List U16) :
    decComplete c { d with cnt := cnt } q = decComplete c d q := rfl

/-- The frame validator's outcome, whatever the count, is DEC's part of `frameDelivered` (R156). -/
theorem decComplete_eq_frameDelivered (s : State) (cnt : Fin 17) (m : U16) :
    decComplete config { s.dec with cnt := cnt, acc := m } s.ch =
      { dec := (frameDelivered s m).dec, ch := (frameDelivered s m).ch, events := (frameDelivered s m).events } := by
  rw [← afterDec_decComplete, decBegin_config]
  rfl

/-- Settles O33: the sixteenth bit makes the accumulator the message, and the frame validator delivers it or not. -/
theorem sixteenthSymbolCompletesFrame : Obligations.SixteenthSymbolCompletesFrame := by
  intro s sym b hcnt hclass
  have hlast : (s.dec.cnt.val == 15) = true := by simp [hcnt]
  refine ⟨placeBit config s.dec.acc 15 b, fun j => getLsbD_placeBit _ 15 j b, ?_⟩
  rw [exec_decSym (by omega), decSymbol_of_class_bit s.ch (by rwa [hlast]), decAccept_of_last _ _ _ _ (by omega), hcnt]
  generalize placeBit config s.dec.acc 15 b = m
  refine ⟨(frameDelivered s m).ch, (frameDelivered s m).events, ?_, fun hnew hroom => ?_, fun hnew hfull => ?_,
    fun hvalid hrepeat => ?_⟩
  · rw [decComplete_eq_frameDelivered s s.dec.cnt m]
    rfl
  · exact frameDelivered_of_new_of_room (isNew_iff.2 hnew) hroom
  · exact frameDelivered_of_new_of_full (isNew_iff.2 hnew) hfull
  · exact frameDelivered_of_repeat (by simp [isNew, hvalid, hrepeat])

end Sys2Proof.Machine

/-! ### A batch as single DEC.SYM operations (R151, R158, R160, R162) -/

namespace Sys2Proof.Machine

/-- Two decoder runs put into the machine one after the other are their concatenation, but for the event list, which is
the last one's (R206). -/
theorem afterDec_afterDec (s : State) (r r' : DecRun) :
    (s.afterDec r).afterDec r' =
      { s.afterDec { r' with events := r.events ++ r'.events } with events := r'.events } := by
  simp [State.afterDec, State.finish]

/-- DEC.SYM of each symbol leaves what the batch leaves, but for the result and the event list of the last operation. -/
theorem execAll_decSym (batch : List OokSymbol) {s : State} (hcnt : s.dec.cnt.val ≤ 15) :
    ∃ (result : Result) (events : List Event), execAll (batch.map .decSym) s =
      .next { s.afterDec (decSymbols config s.dec s.ch batch) with result := result, events := events } := by
  induction batch generalizing s with
  | nil => exact ⟨s.result, s.events, by simp [execAll, State.afterDec, State.finish]⟩
  | cons sym rest ih =>
    obtain ⟨result, events, hrest⟩ :=
      ih (s := s.afterDec (decSymbol config s.dec s.ch sym)) (decSymbol_cnt_le s.dec s.ch sym)
    refine ⟨result, events, ?_⟩
    rw [List.map_cons, execAll_cons_of_next (exec_decSym (by omega) sym), hrest, afterDec_afterDec, decSymbols_cons]
    rfl

/-- Settles O34: after DEC.BEGIN the count is in range, so every DEC.SYM completes and they leave what the batch does. -/
theorem decodeIsBeginThenSymbols : Obligations.DecodeIsBeginThenSymbols := by
  intro s batch
  have hbegin := decBeginClearsRun s
  obtain ⟨result, events, hsymbols⟩ := execAll_decSym batch
    (s := { s with dec := { s.dec with cnt := 0, acc := 0 }, result := .none, events := [] }) (Nat.zero_le 15)
  refine ⟨_, _, rfl, (execAll_cons_of_next hbegin).trans hsymbols, ?_⟩
  simp [decBegin_config]

/-- Settles O35, by the decoder's run on the captured frame. -/
theorem decoderReadsOwnFrame : Obligations.DecoderReadsOwnFrame := exec_loopBack_frame

/-- Settles O40: the first invalid symbol abandons the run and leaves the count at 0, where the others change nothing. -/
theorem oneDiagnosticPerAbandonedRun : Obligations.OneDiagnosticPerAbandonedRun := by
  intro s x more hcnt hclass hmore
  have hrun : decSymbols config s.dec s.ch (x :: more) = decAbandon config s.dec s.ch := by
    rw [decSymbols_cons, decSymbol_of_class_invalid s.ch hclass,
      decSymbols_of_all_invalid (d := (decAbandon config s.dec s.ch).dec) rfl _ more hmore, List.append_nil]
  obtain ⟨result, events, hexec⟩ := execAll_decSym (x :: more) hcnt
  rw [hrun] at hexec
  exact ⟨_, hexec, rfl, rfl, rfl⟩

end Sys2Proof.Machine

/-! ### The shift accumulator (R155, C6)

The shift form holds the bits of the run in progress at the bottom, the latest at bit 0; the positional form holds them
at the top, the first at bit 15. After sixteen bits the two are the same word. -/

namespace Sys2Proof.Machine

/-- The first `n` bits of the run in progress, as the positional form holds them in `acc` and the shift form in `acc'`. -/
def AlignedOnFirst (n : Nat) (acc acc' : U16) : Prop := ∀ j < n, acc'.getLsbD (n - 1 - j) = acc.getLsbD (15 - j)

theorem getLsbD_shiftIn_zero (acc : U16) (b : Bool) : (shiftIn acc b).getLsbD 0 = b := by
  simp [shiftIn]

theorem getLsbD_shiftIn_succ (acc : U16) (b : Bool) {i : Nat} (hi : i + 1 < 16) :
    (shiftIn acc b).getLsbD (i + 1) = acc.getLsbD i := by
  simp [shiftIn, hi, BitVec.getLsbD_eq_getElem (Nat.lt_of_succ_lt hi)]

/-- The same bit taken in by both extends the alignment by one. -/
theorem AlignedOnFirst.shiftIn {n : Nat} {acc acc' : U16} (h : AlignedOnFirst n acc acc') (hn : n ≤ 15) (b : Bool) :
    AlignedOnFirst (n + 1) (placeBit config acc n b) (shiftIn acc' b) := by
  intro j hj
  rw [getLsbD_placeBit]
  by_cases hlast : j = n
  · rw [if_pos (by rw [hlast]), show n + 1 - 1 - j = 0 by omega, getLsbD_shiftIn_zero]
  · rw [if_neg (by omega), show n + 1 - 1 - j = n - 1 - j + 1 by omega, getLsbD_shiftIn_succ acc' b (by omega)]
    exact h j (by omega)

/-- After sixteen bits both accumulators are the same word. -/
theorem AlignedOnFirst.eq {acc acc' : U16} (h : AlignedOnFirst 16 acc acc') : acc' = acc := by
  refine BitVec.eq_of_getLsbD_eq fun i hi => ?_
  have hbit := h (15 - i) (by omega)
  rwa [show 16 - 1 - (15 - i) = i by omega] at hbit

/-- A positional and a shift decoder in the middle of the same run. -/
def DecState.SameRun (d d' : DecState) : Prop :=
  d.cnt.val ≤ 15 ∧ ∃ acc, d' = { d with acc := acc } ∧ AlignedOnFirst d.cnt.val d.acc acc

/-- Between two frames no accumulator bit belongs to a run. -/
theorem DecState.sameRun_of_cnt_zero {d : DecState} (h : d.cnt = 0) (acc : U16) : d.SameRun { d with acc := acc } :=
  ⟨by simp [h], acc, rfl, fun j hj => by simp [h] at hj⟩

theorem decSymbolShift_of_bit_none {d : DecState} (q : List U16) {sym : OokSymbol}
    (h : (classify config sym (d.cnt.val == 15)).bit? = none) :
    decSymbolShift config d q sym = decAbandon config d q := by
  unfold decSymbolShift
  cases hclass : classify config sym (d.cnt.val == 15) with
  | invalid => rfl
  | zero | one => rw [hclass] at h; cases h

theorem decSymbolShift_of_bit_some {d : DecState} (q : List U16) {sym : OokSymbol} {b : Bool}
    (h : (classify config sym (d.cnt.val == 15)).bit? = some b) :
    decSymbolShift config d q sym = decAcceptShift config d q b := by
  unfold decSymbolShift
  cases hclass : classify config sym (d.cnt.val == 15) with
  | invalid | zero | one => rw [hclass] at h; cases h <;> rfl

/-- The shift form before the 16th bit. -/
theorem decAcceptShift_of_lt (c : Config) (d : DecState) (q : List U16) (b : Bool) (h : d.cnt.val < 15) :
    decAcceptShift c d q b =
      { dec := { d with acc := shiftIn d.acc b, cnt := ⟨d.cnt.val + 1, by omega⟩ }, ch := q, events := [] } := by
  have h' : d.cnt.val + 1 < 16 := by omega
  simp [decAcceptShift, h']

/-- The shift form at the 16th bit. -/
theorem decAcceptShift_of_last (c : Config) (d : DecState) (q : List U16) (b : Bool) (h : ¬ d.cnt.val < 15) :
    decAcceptShift c d q b = decComplete c { d with acc := shiftIn d.acc b } q := by
  have h' : ¬ d.cnt.val + 1 < 16 := by omega
  simp [decAcceptShift, h']

/-- A bit taken in keeps the two forms in the same run; the sixteenth hands the frame validator the same word. -/
theorem decAccept_related_of_sameRun {d d' : DecState} (h : d.SameRun d') (q : List U16) (b : Bool) :
    (decAccept config d q b).Related DecState.SameRun (decAcceptShift config d' q b) := by
  obtain ⟨hcnt, acc, rfl, haligned⟩ := h
  have hnext := haligned.shiftIn hcnt b
  by_cases hlt : d.cnt.val < 15
  · rw [decAccept_of_lt _ _ _ _ hlt, decAcceptShift_of_lt _ _ _ _ (by exact hlt)]
    exact ⟨⟨hlt, _, rfl, hnext⟩, rfl, rfl⟩
  · have hlast : d.cnt.val = 15 := by omega
    have hfull : shiftIn acc b = placeBit config d.acc d.cnt.val b := by
      rw [hlast] at hnext ⊢
      exact hnext.eq
    rw [decAccept_of_last _ _ _ _ hlt, decAcceptShift_of_last _ _ _ _ (by exact hlt), hfull]
    exact ⟨DecState.sameRun_of_cnt_zero (decComplete_cnt _ q) _, rfl, rfl⟩

/-- One DEC.SYM keeps the two forms in the same run (R153). -/
theorem decSymbol_related_of_sameRun {d d' : DecState} (h : d.SameRun d') (q : List U16) (sym : OokSymbol) :
    (decSymbol config d q sym).Related DecState.SameRun (decSymbolShift config d' q sym) := by
  have hcnt : d'.cnt = d.cnt := by obtain ⟨-, acc, rfl, -⟩ := h; rfl
  cases hbit : (classify config sym (d.cnt.val == 15)).bit? with
  | none =>
    rw [decSymbolShift_of_bit_none q (by rwa [hcnt])]
    obtain ⟨-, acc, rfl, -⟩ := h
    simp only [decSymbol_eq, hbit]
    exact ⟨DecState.sameRun_of_cnt_zero rfl acc, rfl, rfl⟩
  | some b =>
    rw [decSymbolShift_of_bit_some q (by rwa [hcnt])]
    simp only [decSymbol_eq, hbit]
    exact decAccept_related_of_sameRun h q b

/-- So does a batch (R151). -/
theorem decSymbols_related_of_sameRun (batch : List OokSymbol) {d d' : DecState} (h : d.SameRun d') (q : List U16) :
    (decSymbols config d q batch).Related DecState.SameRun (decSymbolsShift config d' q batch) := by
  induction batch generalizing d d' q with
  | nil => exact ⟨h, rfl, rfl⟩
  | cons sym rest ih =>
    have hfirst := decSymbol_related_of_sameRun h q sym
    have hrest := ih hfirst.dec (decSymbol config d q sym).ch
    simp only [decSymbols_cons, decSymbolsShift, hfirst.ch]
    exact ⟨hrest.dec, hrest.ch, by simp only [hfirst.events, hrest.events]⟩

/-- Settles O43: the two forms begin in the same run, of no bits, and every symbol keeps them in one. -/
theorem shiftAccumulatorEquivalent : Obligations.ShiftAccumulatorEquivalent := by
  intro d q stale batch hcnt a b
  have hrel : a.Related DecState.SameRun b :=
    decSymbols_related_of_sameRun batch (DecState.sameRun_of_cnt_zero hcnt stale) q
  obtain ⟨-, acc, hdec, -⟩ := hrel.dec
  exact ⟨hrel.events, hrel.ch, by rw [hdec], by rw [hdec], by rw [hdec]⟩

end Sys2Proof.Machine

/-! ### Frames delivered in a batch (R156, R162, R163)

A batch that has completed the frames of some messages leaves what delivering those messages in order leaves, but for the
run in progress. -/

namespace Sys2Proof.Machine

/-- DEC.BEGIN and DEC.SYM of each symbol, from a state of the machine (R151). -/
def State.decRun (s : State) (batch : List OokSymbol) : DecRun := decSymbols config (decBegin config s.dec) s.ch batch

theorem exec_decDecode (s : State) (batch : List OokSymbol) :
    exec (.decDecode batch) s = .next (s.afterDec (s.decRun batch)) := rfl

/-- The decoder run `r` from `s` has delivered `messages` in order, and done nothing else but write the run in
progress. -/
structure DecRun.Delivers (r : DecRun) (s : State) (messages : List U16) : Prop where
  last      : r.dec.last = (messages.foldl frameDelivered s).dec.last
  lastValid : r.dec.lastValid = (messages.foldl frameDelivered s).dec.lastValid
  ch        : r.ch = (messages.foldl frameDelivered s).ch
  log       : (messages.foldl frameDelivered s).log = s.log ++ r.events

/-- DEC.BEGIN delivers nothing. -/
theorem State.decRun_nil_delivers (s : State) : (s.decRun []).Delivers s [] where
  last      := rfl
  lastValid := by simp [State.decRun]
  ch        := rfl
  log       := (List.append_nil s.log).symm

/-- Completing one more frame delivers one more message. -/
theorem DecRun.Delivers.complete {r : DecRun} {s : State} {messages : List U16} (h : r.Delivers s messages) (m : U16) :
    DecRun.Delivers { decComplete config { r.dec with acc := m } r.ch with
      events := r.events ++ (decComplete config { r.dec with acc := m } r.ch).events } s (messages ++ [m]) := by
  have hcomplete : decComplete config { r.dec with acc := m } r.ch =
      decComplete config { (messages.foldl frameDelivered s).dec with cnt := r.dec.cnt, acc := m }
        (messages.foldl frameDelivered s).ch := by
    simp only [h.last, h.lastValid, h.ch]
  rw [hcomplete, decComplete_eq_frameDelivered]
  exact ⟨by simp, by simp, by simp, by simp [h.log]⟩

/-- A batch in two parts, as a run of the machine. -/
theorem State.decRun_append (s : State) (as bs : List OokSymbol) :
    s.decRun (as ++ bs) =
      { decSymbols config (s.decRun as).dec (s.decRun as).ch bs with
        events := (s.decRun as).events ++ (decSymbols config (s.decRun as).dec (s.decRun as).ch bs).events } :=
  decSymbols_append config _ s.ch as bs

/-- One captured payload after a batch that ends between two frames delivers its message. -/
theorem DecRun.Delivers.append_capturedBits {s : State} {batch : List OokSymbol} {messages : List U16}
    (h : (s.decRun batch).Delivers s messages) (hcnt : (s.decRun batch).dec.cnt = 0) (m : U16) :
    (s.decRun (batch ++ capturedBits m)).Delivers s (messages ++ [m]) := by
  rw [State.decRun_append, decSymbols_capturedBits hcnt]
  exact h.complete m

/-- Captured payloads in one batch are delivered in order, and the batch ends between two frames. -/
theorem State.decRun_capturedBits (s : State) (messages : List U16) :
    (s.decRun (messages.flatMap capturedBits)).Delivers s messages ∧
      (s.decRun (messages.flatMap capturedBits)).dec.cnt = 0 := by
  induction messages using List.reverseRecOn with
  | nil => exact ⟨s.decRun_nil_delivers, rfl⟩
  | append_singleton messages m ih =>
    obtain ⟨hdelivers, hcnt⟩ := ih
    rw [List.flatMap_append, List.flatMap_singleton]
    refine ⟨hdelivers.append_capturedBits hcnt m, ?_⟩
    rw [State.decRun_append, decSymbols_capturedBits hcnt]
    exact decComplete_cnt _ _

/-- A run that delivered `messages`, put into the machine, is those deliveries but for the run in progress, whose count
and last diagnostics are left open. -/
theorem DecRun.Delivers.afterDec {r : DecRun} {s : State} {messages : List U16} (h : r.Delivers s messages)
    (cnt : Fin 17) (diag : List Event) :
    s.afterDec { dec := { r.dec with cnt := cnt }, ch := r.ch, events := r.events ++ diag } =
      { messages.foldl frameDelivered s with
        dec := { (messages.foldl frameDelivered s).dec with cnt := cnt, acc := r.dec.acc }, result := .none,
        events := r.events ++ diag, log := (messages.foldl frameDelivered s).log ++ diag } := by
  obtain ⟨henc, htx, hout, hdraws, hpending⟩ := foldl_frameDelivered_frame messages s
  simp only [State.afterDec, State.finish, h.last, h.lastValid, h.ch, h.log, henc, htx, hout, hdraws, hpending,
    List.append_assoc]

/-- The event list of a batch of captured payloads is what their deliveries add to the history. -/
theorem exec_decDecode_capturedBits {s : State} {messages : List U16} {events : List Event}
    (hlog : (messages.foldl frameDelivered s).log = s.log ++ events) :
    ∃ t, exec (.decDecode (messages.flatMap capturedBits)) s = .next t ∧ t.events = events ∧
      t.ch = (messages.foldl frameDelivered s).ch := by
  have hdelivers := (s.decRun_capturedBits messages).1
  exact ⟨_, rfl, List.append_cancel_left (hdelivers.log.symm.trans hlog), hdelivers.ch⟩

/-- A captured payload alone in a batch is one frame of its message. -/
theorem exec_decDecode_capturedBits_single (s : State) (m : U16) :
    exec (.decDecode (capturedBits m)) s = .next (frameDelivered s m) := by
  rw [exec_decDecode, State.decRun, decSymbols_capturedBits (decBegin_cnt config s.dec), afterDec_decComplete]

/-- After a delivery a message is new when it is another one (R157). -/
theorem isNew_frameDelivered (s : State) (m m' : U16) : isNew (frameDelivered s m).dec m' = (m' != m) := by
  simp [isNew]

/-- Settles O41: each of the three captures is delivered frame by frame, and the latch holds the value just before. -/
theorem suppressionIsAgainstPrecedingValue : Obligations.SuppressionIsAgainstPrecedingValue := by
  intro s a b hnew hne hroom
  obtain ⟨hchA, hevA⟩ := frameDelivered_of_new_of_room (isNew_iff.2 hnew) (show s.ch.length < 4 by omega)
  obtain ⟨-, hevAA⟩ := frameDelivered_of_repeat (s := frameDelivered s a) (m := a)
    (by rw [isNew_frameDelivered, bne_self_eq_false])
  obtain ⟨hchAB, hevAB⟩ := frameDelivered_of_new_of_room (s := frameDelivered s a) (m := b)
    (by rw [isNew_frameDelivered]; exact bne_iff_ne.2 hne.symm) (by simp [hchA]; omega)
  obtain ⟨hchABA, hevABA⟩ := frameDelivered_of_new_of_room (s := frameDelivered (frameDelivered s a) b) (m := a)
    (by rw [isNew_frameDelivered]; exact bne_iff_ne.2 hne) (by simp [hchAB, hchA]; omega)
  refine ⟨?_, ⟨frameDelivered (frameDelivered s a) a, ?_, hevAA, by simp [hevAA, hevA]⟩, ?_⟩
  · obtain ⟨t, hexec, hevents, -⟩ := exec_decDecode_capturedBits (s := s) (messages := [a, a]) (events := [.emit a])
      (by simp [hevA, hevAA])
    exact ⟨t, by simpa using hexec, hevents⟩
  · rw [execAll_cons_of_next (exec_decDecode_capturedBits_single s a)]
    exact execAll_cons_of_next (exec_decDecode_capturedBits_single _ a)
  · obtain ⟨t, hexec, hevents, hch⟩ := exec_decDecode_capturedBits (s := s) (messages := [a, b, a])
      (events := [.emit a, .emit b, .emit a]) (by simp [hevA, hevAB, hevABA])
    exact ⟨t, by simpa using hexec, hevents, by simp [hch, hchA, hchAB, hchABA]⟩

end Sys2Proof.Machine

/-! ### Runs of valid symbols of any length (R155, R156, R159, R161, R164)

A run is followed symbol by symbol from its start: the words it spells are the messages delivered so far and then the
accumulator, and each further symbol writes one bit of the last word. -/

namespace Sys2Proof.Machine

/-- The bit of place `j` of a run that spells `messages` and then the bits in `acc`: sixteen places for each word, most
significant bit first (R53). -/
def spelledBit (messages : List U16) (acc : U16) (j : Nat) : Bool :=
  (messages.getD (j / 16) acc).getLsbD (15 - j % 16)

theorem spelledBit_of_lt {messages : List U16} (acc : U16) {j : Nat} (h : j / 16 < messages.length) :
    spelledBit messages acc j = messages[j / 16].getLsbD (15 - j % 16) := by
  rw [spelledBit, List.getD_eq_getElem _ _ h]

theorem spelledBit_of_ge {messages : List U16} (acc : U16) {j : Nat} (h : messages.length ≤ j / 16) :
    spelledBit messages acc j = acc.getLsbD (15 - j % 16) := by
  rw [spelledBit, List.getD_eq_default _ _ h]

/-- Writing the bit of the place after the run leaves the places of the run alone. -/
theorem spelledBit_placeBit (messages : List U16) (acc : U16) {n j : Nat} (b : Bool) (hn : n ≤ 15)
    (hj : j ≤ 16 * messages.length + n) :
    spelledBit messages (placeBit config acc n b) j =
      if j = 16 * messages.length + n then b else spelledBit messages acc j := by
  by_cases hword : j / 16 < messages.length
  · rw [spelledBit_of_lt _ hword, spelledBit_of_lt _ hword, if_neg (by omega)]
  · rw [spelledBit_of_ge _ (by omega), spelledBit_of_ge _ (by omega), getLsbD_placeBit]
    exact if_congr (by omega) rfl rfl

/-- A full accumulator is one message more. -/
theorem spelledBit_complete (messages : List U16) (m acc : U16) {j : Nat} (hj : j < 16 * (messages.length + 1)) :
    spelledBit (messages ++ [m]) acc j = spelledBit messages m j := by
  by_cases hword : j / 16 < messages.length
  · rw [spelledBit_of_lt _ hword, spelledBit_of_lt _ (by simp; omega), List.getElem_append_left hword]
  · have hlast : j / 16 = messages.length := by omega
    rw [spelledBit_of_lt acc (by simp; omega), spelledBit_of_ge m (by omega)]
    simp [hlast]

/-- The symbols of the run are classed as the bits of `messages` and then of `acc`, every sixteenth one's low duration
exempt (R106, R154). -/
def Spells (run : List OokSymbol) (messages : List U16) (acc : U16) : Prop :=
  ∀ (j : Nat) (h : j < run.length),
    classify config run[j] (j % 16 == 15) = if spelledBit messages acc j then .one else .zero

/-- One symbol more writes its bit. -/
theorem Spells.snoc {run : List OokSymbol} {messages : List U16} {acc : U16} (h : Spells run messages acc) {n : Nat}
    (hlength : run.length = 16 * messages.length + n) (hn : n ≤ 15) {sym : OokSymbol} {b : Bool}
    (hclass : classify config sym (n == 15) = if b then .one else .zero) :
    Spells (run ++ [sym]) messages (placeBit config acc n b) := by
  intro j hj
  rw [List.length_append, List.length_singleton] at hj
  rw [spelledBit_placeBit messages acc b hn (by omega)]
  by_cases hlast : j = run.length
  · subst hlast
    rw [List.getElem_concat_length rfl, if_pos hlength, hlength, Nat.mul_add_mod_self_left,
      Nat.mod_eq_of_lt (by omega), hclass]
  · rw [List.getElem_append_left (by omega), if_neg (show j ≠ 16 * messages.length + n by omega), h j (by omega)]

/-- A run whose accumulator is full spells one message more, and the accumulator holds no bit of it. -/
theorem Spells.complete {run : List OokSymbol} {messages : List U16} {m : U16} (h : Spells run messages m)
    (hlength : run.length = 16 * (messages.length + 1)) (acc : U16) : Spells run (messages ++ [m]) acc := by
  intro j hj
  rw [spelledBit_complete messages m acc (by omega)]
  exact h j hj

/-- What DEC makes of a run of valid symbols from its start: it delivered the messages the run spells and holds the rest
of it. -/
structure State.RunSplits (s : State) (run : List OokSymbol) (messages : List U16) : Prop where
  cnt_le   : (s.decRun run).dec.cnt.val ≤ 15
  length   : run.length = 16 * messages.length + (s.decRun run).dec.cnt.val
  spells   : Spells run messages (s.decRun run).dec.acc
  delivers : (s.decRun run).Delivers s messages

theorem State.runSplits_nil (s : State) : s.RunSplits [] [] where
  cnt_le   := Nat.zero_le _
  length   := rfl
  spells   := fun j hj => absurd hj (Nat.not_lt_zero j)
  delivers := s.decRun_nil_delivers

/-- The place of the next symbol in its frame. -/
theorem State.RunSplits.cnt_eq {s : State} {run : List OokSymbol} {messages : List U16} (h : s.RunSplits run messages) :
    (s.decRun run).dec.cnt.val = run.length % 16 := by
  have hcnt := h.cnt_le
  have hlength := h.length
  omega

/-- One symbol after a batch. -/
theorem State.decRun_snoc (s : State) (run : List OokSymbol) (sym : OokSymbol) :
    s.decRun (run ++ [sym]) =
      { decSymbol config (s.decRun run).dec (s.decRun run).ch sym with
        events := (s.decRun run).events ++ (decSymbol config (s.decRun run).dec (s.decRun run).ch sym).events } := by
  rw [State.decRun_append, decSymbols_cons]
  simp

/-- One valid symbol more: it lengthens the rest, or its bit is the last of a message (R155, R156). -/
theorem State.RunSplits.snoc {s : State} {run : List OokSymbol} {messages : List U16} (h : s.RunSplits run messages)
    {sym : OokSymbol} (hvalid : classify config sym (run.length % 16 == 15) ≠ .invalid) :
    ∃ messages', s.RunSplits (run ++ [sym]) messages' := by
  obtain ⟨b, hclass⟩ := exists_bit_of_class_valid hvalid
  rw [← h.cnt_eq] at hclass
  have hspells := h.spells.snoc h.length h.cnt_le hclass
  have hlength : (run ++ [sym]).length = 16 * messages.length + ((s.decRun run).dec.cnt.val + 1) := by
    rw [List.length_append, List.length_singleton, h.length, Nat.add_assoc]
  have hrun := s.decRun_snoc run sym
  rw [decSymbol_of_class_bit _ hclass] at hrun
  have hfull := h.cnt_le
  by_cases hlt : (s.decRun run).dec.cnt.val < 15
  · rw [decAccept_of_lt _ _ _ _ hlt, List.append_nil] at hrun
    refine ⟨messages, ?_, ?_, ?_, ?_⟩ <;> rw [hrun]
    · exact hlt
    · exact hlength
    · exact hspells
    · exact ⟨h.delivers.last, h.delivers.lastValid, h.delivers.ch, h.delivers.log⟩
  · rw [decAccept_of_last _ _ _ _ hlt] at hrun
    generalize placeBit config (s.decRun run).dec.acc (s.decRun run).dec.cnt.val b = m at hspells hrun
    refine ⟨messages ++ [m], ?_, ?_, ?_, ?_⟩ <;> rw [hrun]
    · simp
    · simp only [decComplete_cnt, hlength, List.length_append, List.length_singleton, Fin.val_zero]
      omega
    · exact hspells.complete (by omega) _
    · exact h.delivers.complete _

/-- Every run of valid symbols splits so. -/
theorem State.exists_runSplits (s : State) (run : List OokSymbol)
    (hvalid : ∀ (j : Nat) (h : j < run.length), classify config run[j] (j % 16 == 15) ≠ .invalid) :
    ∃ messages, s.RunSplits run messages := by
  induction run using List.reverseRecOn with
  | nil => exact ⟨[], s.runSplits_nil⟩
  | append_singleton run sym ih =>
    have hlength : (run ++ [sym]).length = run.length + 1 := List.length_append
    have hfront : ∀ (j : Nat) (h : j < run.length), classify config run[j] (j % 16 == 15) ≠ .invalid := by
      intro j hj
      have hsymbol := hvalid j (by omega)
      rwa [List.getElem_append_left hj] at hsymbol
    have hlast := hvalid run.length (by omega)
    rw [List.getElem_concat_length rfl] at hlast
    obtain ⟨messages, hsplits⟩ := ih hfront
    exact hsplits.snoc hlast

/-- The outcome of a run of valid symbols as a whole next state: the rest is silent at the end of the batch (R159). -/
theorem State.RunSplits.exec_run {s : State} {run : List OokSymbol} {messages : List U16}
    (h : s.RunSplits run messages) :
    exec (.decDecode run) s = .next
      { messages.foldl frameDelivered s with
        dec := { (messages.foldl frameDelivered s).dec with
          cnt := (s.decRun run).dec.cnt, acc := (s.decRun run).dec.acc },
        result := .none, events := (s.decRun run).events } := by
  have hafter := h.delivers.afterDec (s.decRun run).dec.cnt []
  simp only [List.append_nil] at hafter
  rw [exec_decDecode, ← hafter]

/-- An invalid symbol after the run abandons the rest (R158), and the messages stay delivered. -/
theorem State.RunSplits.exec_run_then_invalid {s : State} {run : List OokSymbol} {messages : List U16}
    (h : s.RunSplits run messages) {x : OokSymbol}
    (hinvalid : classify config x (run.length % 16 == 15) = .invalid) {diag : List Event}
    (hdiag : diag = if 2 < (s.decRun run).dec.cnt.val then [.diag (s.decRun run).dec.cnt.val] else []) :
    exec (.decDecode (run ++ [x])) s = .next
      { messages.foldl frameDelivered s with
        dec := { (messages.foldl frameDelivered s).dec with cnt := 0, acc := (s.decRun run).dec.acc },
        result := .none, events := (s.decRun run).events ++ diag,
        log := (messages.foldl frameDelivered s).log ++ diag } := by
  have hrun : s.decRun (run ++ [x]) =
      { dec := { (s.decRun run).dec with cnt := 0 }, ch := (s.decRun run).ch,
        events := (s.decRun run).events ++ diag } := by
    rw [s.decRun_snoc, decSymbol_of_class_invalid _ (by rwa [h.cnt_eq]), hdiag]
    rfl
  rw [exec_decDecode, hrun, h.delivers.afterDec]

/-- After the last of some deliveries the latch holds its message (R156). -/
theorem foldl_frameDelivered_latch {messages : List U16} {m : U16} (h : m ∈ messages.getLast?) (s : State) :
    (messages.foldl frameDelivered s).dec.last = m ∧ (messages.foldl frameDelivered s).dec.lastValid = true := by
  obtain ⟨init, rfl⟩ := List.getLast?_eq_some_iff.1 h
  simp

/-- Settles O38: the run splits into the messages delivered and the rest, and each ending is an outcome of that split. -/
theorem longRunsSplitIntoFrames : Obligations.LongRunsSplitIntoFrames := by
  intro s run x hvalid hinvalid
  obtain ⟨messages, h⟩ := s.exists_runSplits run hvalid
  have hcnt := h.cnt_le
  have hlength := h.length
  refine ⟨messages, (s.decRun run).dec.acc, (s.decRun run).dec.cnt, (s.decRun run).events, by omega, h.cnt_eq,
    fun j hj hword => ?_, fun i hi => ?_, ⟨h.delivers.log, h.exec_run, h.exec_run_then_invalid hinvalid rfl⟩,
    fun m hm => foldl_frameDelivered_latch hm s⟩
  · rw [h.spells j hj, spelledBit_of_lt _ hword]
  · have hplace : (16 * messages.length + i) % 16 = i := by omega
    have hrest : (i == 15) = false := by simp; omega
    have hclass := h.spells _ hi
    rwa [spelledBit_of_ge _ (by omega), hplace, hrest] at hclass

end Sys2Proof.Machine

/-! ### The channel as a queue (R181 to R184, R203, R244)

What DEC's units append to the channel is what their events report, and what leaves it is what CH.POP hands over: every
operation balances the two, and so does every sequence. -/

namespace Sys2Proof.Machine

/-- Settles O46, by the two equations of CH.POP; an empty channel is written back as it is. -/
theorem popReturnsOldest : Obligations.PopReturnsOldest := by
  refine ⟨fun s m q hch => ?_, fun s hch => ?_⟩
  · rw [exec_chPop_of_cons hch, State.finish_no_events]
  · rw [exec_chPop_of_nil hch, State.finish_no_events, ← hch]

/-- The frame validator appends what it reports (R156, R203): a new message with room, and nothing otherwise. -/
theorem decComplete_ch (d : DecState) (q : List U16) :
    (decComplete config d q).ch = q ++ emitted (decComplete config d q).events := by
  rcases decComplete_cases d q with ⟨-, -, heq⟩ | ⟨-, -, heq⟩ | ⟨-, heq⟩ <;> rw [heq]
  · rfl
  · exact (List.append_nil q).symm
  · exact (List.append_nil q).symm

/-- An abandoned run reports no delivery (R158). -/
theorem emitted_decAbandon (d : DecState) (q : List U16) : emitted (decAbandon config d q).events = [] := by
  by_cases hlong : 2 < d.cnt.val <;> simp [decAbandon, hlong, emitted]

/-- DEC.SYM appends to the channel what its events report (R203). -/
theorem decSymbol_ch (d : DecState) (q : List U16) (sym : OokSymbol) :
    (decSymbol config d q sym).ch = q ++ emitted (decSymbol config d q sym).events := by
  rcases decSymbol_cases d.cnt sym with heq | ⟨b, n, -, -, heq⟩ | ⟨b, -, heq⟩ <;> rw [heq d q rfl]
  · rw [emitted_decAbandon, List.append_nil]
    rfl
  · exact (List.append_nil q).symm
  · exact decComplete_ch _ q

/-- So does a batch, in its symbols' order (R60, R151). -/
theorem decSymbols_ch (batch : List OokSymbol) (d : DecState) (q : List U16) :
    (decSymbols config d q batch).ch = q ++ emitted (decSymbols config d q batch).events := by
  induction batch generalizing d q with
  | nil => exact (List.append_nil q).symm
  | cons sym rest ih => rw [decSymbols_cons, ih, decSymbol_ch, emitted_append, List.append_assoc]

/-- The message a result hands to the consumer, if it does (R182). -/
def Result.handed : Result → List U16
  | .popped m => m.toList
  | .none | .encoded .. | .window _ | .classified _ | .code _ | .payload _ => []

theorem Result.handed_of_ne_popped {r : Result} (h : ∀ m, r ≠ .popped m) : r.handed = [] := by
  cases r with
  | popped m => exact absurd rfl (h m)
  | none | encoded | window | classified | code | payload => rfl

/-- What a sequence hands to the consumer begins with what its first operation does. -/
theorem poppedBy_cons {i : Instr} {s u : State} (h : exec i s = .next u) (is : List Instr) :
    poppedBy (i :: is) s = u.result.handed ++ poppedBy is u := by
  simp only [poppedBy, h]
  rcases u.result with _ | _ | (_ | m) | _ | _ | _ | _ <;> rfl

/-- Every operation balances the channel: what was in it and what entered is what was handed over and what is left
(R182, R203). -/
theorem exec_balances_channel {i : Instr} {s t : State} (h : exec i s = .next t) :
    s.ch ++ emitted t.events = t.result.handed ++ t.ch := by
  cases exec_cases h with
  | decode batch => exact (decSymbols_ch batch _ s.ch).symm
  | decSym sym => exact (decSymbol_ch s.dec s.ch sym).symm
  | pop => exact (List.append_nil s.ch).trans (chPop_split s.ch).symm
  | pure i r hpure hresult =>
    rw [State.finish_result, Result.handed_of_ne_popped hresult]
    exact List.append_nil s.ch
  | encode | encReset | decBegin | symbolWord => exact List.append_nil s.ch

/-- A sequence that completes is an operation that completes and then the rest. -/
theorem execAll_cons_eq_next {i : Instr} {is : List Instr} {s t : State} (h : execAll (i :: is) s = .next t) :
    ∃ u, exec i s = .next u ∧ execAll is u = .next t := by
  simp only [execAll] at h
  cases hexec : exec i s with
  | next u => exact ⟨u, rfl, by rwa [hexec] at h⟩
  | fault f => rw [hexec] at h; cases h
  | refused r => rw [hexec] at h; cases h

/-- Settles O47, by induction on the sequence: each operation balances the channel. -/
theorem channelIsFifo : Obligations.ChannelIsFifo := by
  intro ops
  induction ops with
  | nil =>
    intro s t h
    cases h
    exact ⟨[], (List.append_nil s.log).symm, List.append_nil s.ch⟩
  | cons i is ih =>
    intro s t h
    obtain ⟨u, hexec, hrest⟩ := execAll_cons_eq_next h
    obtain ⟨ev, hlog, hqueue⟩ := ih u t hrest
    obtain ⟨-, -, -, -, -, hlogStep, -⟩ := agentsOwnTheirState i s u hexec
    refine ⟨u.events ++ ev, by rw [hlog, hlogStep, List.append_assoc], ?_⟩
    calc s.ch ++ emitted (u.events ++ ev)
      _ = (s.ch ++ emitted u.events) ++ emitted ev := by rw [emitted_append, List.append_assoc]
      _ = u.result.handed ++ (u.ch ++ emitted ev) := by rw [exec_balances_channel hexec, List.append_assoc]
      _ = (u.result.handed ++ poppedBy is u) ++ t.ch := by rw [hqueue, List.append_assoc]
      _ = poppedBy (i :: is) s ++ t.ch := by rw [poppedBy_cons hexec]

/-- CH.POP takes the oldest message, if there is one, and writes neither DEC nor the history (R182). -/
theorem exec_chPop_drops_oldest (s : State) :
    ∃ u, exec .chPop s = .next u ∧ u.ch = s.ch.drop 1 ∧ u.dec = s.dec ∧ u.log = s.log := by
  refine ⟨_, rfl, ?_, rfl, List.append_nil s.log⟩
  rw [State.finish_ch]
  cases s.ch <;> rfl

/-- Settles O48: the overflow writes the latch, so after the pop the same frame is a repeat and is not delivered. -/
theorem overflowedMessageIsLost : Obligations.OverflowedMessageIsLost := by
  intro s m hnew hfull
  obtain ⟨hch, hoverflow⟩ := frameDelivered_of_new_of_full (isNew_iff.2 hnew) hfull
  obtain ⟨u, hpop, huch, hudec, hulog⟩ := exec_chPop_drops_oldest (frameDelivered s m)
  have hrepeat : isNew u.dec m = false := by rw [hudec, isNew_frameDelivered, bne_self_eq_false]
  obtain ⟨hchAgain, hsilent⟩ := frameDelivered_of_repeat hrepeat
  refine ⟨frameDelivered u m, ?_, ?_, ?_, rfl⟩
  · rw [execAll_cons_of_next (exec_loopBack_frame s m), execAll_cons_of_next hpop]
    exact execAll_cons_of_next (exec_loopBack_frame u m)
  · rw [frameDelivered_log, hsilent, List.append_nil, hulog, frameDelivered_log, hoverflow]
  · rw [hchAgain, huch, hch]

end Sys2Proof.Machine

/-! ### The channel table's two lookups (R192)

In a table that is injective both ways each lookup finds exactly the rows of the table, so the two are inverse. -/

namespace Sys2Proof

/-- A lookup by a key no two rows share finds a row exactly if the table holds it. -/
theorem map_find?_eq_some_iff {α β γ : Type} [BEq β] [LawfulBEq β] {rows : List α} {key : α → β} (value : α → γ)
    (h : (rows.map key).Nodup) {k : β} {v : γ} :
    (rows.find? (fun row => key row == k)).map value = some v ↔ ∃ row ∈ rows, key row = k ∧ value row = v := by
  constructor
  · intro hfind
    obtain ⟨row, hrow, hvalue⟩ := Option.map_eq_some_iff.1 hfind
    exact ⟨row, List.mem_of_find?_eq_some hrow, by simpa using List.find?_some hrow, hvalue⟩
  · rintro ⟨row, hmem, rfl, rfl⟩
    cases hfind : rows.find? (fun other => key other == key row) with
    | none => exact absurd (beq_self_eq_true (key row)) (List.find?_eq_none.1 hfind row hmem)
    | some found =>
      have hkey : key found = key row := by simpa using List.find?_some hfind
      have hfound : found = row := List.inj_on_of_nodup_map h (List.mem_of_find?_eq_some hfind) hmem hkey
      rw [hfound, Option.map_some]

theorem tableInjective_iff {rows : List (Byte × BitVec 2)} :
    tableInjective rows = true ↔ (rows.map Prod.fst).Nodup ∧ (rows.map Prod.snd).Nodup := by
  simp [tableInjective]

/-- A legal parameter set has an injective table (R192). -/
theorem Config.tableInjective_of_wellFormed {c : Config} (h : c.wellFormed = true) : tableInjective c.pmTable = true :=
  (Bool.and_eq_true_iff.1 h).2

theorem Config.selector_eq_some_iff {c : Config} (h : tableInjective c.pmTable = true) {channel : Byte} {sel : BitVec 2} :
    c.selector channel = some sel ↔ (channel, sel) ∈ c.pmTable := by
  rw [Config.selector, map_find?_eq_some_iff Prod.snd (tableInjective_iff.1 h).1]
  simp

theorem Config.channelOf_eq_some_iff {c : Config} (h : tableInjective c.pmTable = true) {channel : Byte}
    {sel : BitVec 2} : c.channelOf sel = some channel ↔ (channel, sel) ∈ c.pmTable := by
  rw [Config.channelOf, map_find?_eq_some_iff Prod.fst (tableInjective_iff.1 h).2]
  simp

end Sys2Proof

/-! ### The fields of a code (R190, R191, R193)

Every bit of a code stands in one of four fields: the low byte, the fixed bits, the selector, and on or off. PM.ENC writes
the four and PM.DEC reads the four. -/

namespace Sys2Proof.Machine

/-- R190's layout leaves out no bit: two codes that agree in the four fields are the same. -/
theorem eq_of_codeFields_eq {m m' : U16} (hlow : pmLow m = pmLow m')
    (hfixed : pmHigh m &&& config.pmFixedMask = pmHigh m' &&& config.pmFixedMask)
    (hsel : pmSel config m = pmSel config m') (hon : pmOn config m = pmOn config m') : m = m' := by
  refine BitVec.eq_of_getLsbD_eq fun i hi => ?_
  have hlayout : i < 8 ∨ (i = 8 ∨ i = 9 ∨ i = 12 ∨ i = 13 ∨ i = 14) ∨ (i = 10 ∨ i = 11) ∨ i = 15 := by omega
  rcases hlayout with hi | hi | hi | rfl
  · simpa [pmLow, hi] using congrArg (·.getLsbD i) hlow
  · have hbit := congrArg (·.getLsbD (i - 8)) hfixed
    rcases hi with rfl | rfl | rfl | rfl | rfl <;> simpa [pmHigh, config] using hbit
  · have hbit := congrArg (·.getLsbD (i - 10)) hsel
    rcases hi with rfl | rfl <;> simpa [pmSel, config] using hbit
  · exact hon

/-- A message has R190's constants: the low byte and the fixed bits of the high byte. -/
def HasFixedPattern (c : Config) (m : U16) : Prop :=
  pmLow m = c.pmLowByte ∧ pmHigh m &&& c.pmFixedMask = c.pmFixedValue

theorem hasFixedPattern_pmCode : ∀ sel on, HasFixedPattern config (pmCode config sel on) := by
  unfold HasFixedPattern
  decide

theorem pmSel_pmCode : ∀ sel on, pmSel config (pmCode config sel on) = sel := by decide

theorem pmOn_pmCode : ∀ sel on, pmOn config (pmCode config sel on) = on := by decide

/-- PM.ENC's code is the one message with R190's constants and the given selector and state. -/
theorem eq_pmCode_iff {m : U16} {sel : BitVec 2} {on : Bool} :
    m = pmCode config sel on ↔ HasFixedPattern config m ∧ pmSel config m = sel ∧ pmOn config m = on := by
  obtain ⟨hlow, hfixed⟩ := hasFixedPattern_pmCode sel on
  constructor
  · rintro rfl
    exact ⟨⟨hlow, hfixed⟩, pmSel_pmCode sel on, pmOn_pmCode sel on⟩
  · rintro ⟨⟨hmlow, hmfixed⟩, hsel, hon⟩
    exact eq_of_codeFields_eq (hmlow.trans hlow.symm) (hmfixed.trans hfixed.symm) (hsel.trans (pmSel_pmCode sel on).symm)
      (hon.trans (pmOn_pmCode sel on).symm)

/-- The code with R191's constants written out. -/
theorem pmCode_config (sel : BitVec 2) (on : Bool) :
    pmCode config sel on = ((if on then 1#16 else 0#16) <<< 15) ||| (sel.setWidth 16 <<< 10) ||| 0x00AA#16 := by
  revert sel on
  decide

end Sys2Proof.Machine

/-! ### PM.ENC and PM.DEC (R191, R193, R194)

Both functions are read as one relation: the table's row of the channel, and the code of that row's selector. -/

namespace Sys2Proof.Machine

theorem pmEncode_eq_some_iff {c : Config} {channel : Byte} {on : Bool} {m : U16} :
    pmEncode c channel on = some m ↔ ∃ sel, c.selector channel = some sel ∧ pmCode c sel on = m :=
  Option.map_eq_some_iff

/-- PM.DEC answers a pair exactly if its three checks pass (R193). -/
theorem pmDecode_eq_pair_iff {c : Config} {channel : Byte} {on : Bool} {m : U16} :
    pmDecode c m = .pair channel on ↔
      HasFixedPattern c m ∧ c.channelOf (pmSel c m) = some channel ∧ pmOn c m = on := by
  unfold pmDecode HasFixedPattern
  split
  next hlow => simp [hlow]
  next hlow =>
    split
    next hfixed => simp [hfixed]
    next hfixed => cases c.channelOf (pmSel c m) <;> simp [not_not.1 hlow, not_not.1 hfixed]

/-- PM.DEC has no answer but a pair and InvalidCode (R193). -/
theorem pmDecode_eq_invalidCode_of_ne_pair {c : Config} {m : U16} (h : ∀ channel on, pmDecode c m ≠ .pair channel on) :
    pmDecode c m = .invalidCode := by
  cases hresult : pmDecode c m with
  | invalidCode => rfl
  | pair channel on => exact absurd hresult (h channel on)

theorem pmDecode_of_not_hasFixedPattern {c : Config} {m : U16} (h : ¬ HasFixedPattern c m) :
    pmDecode c m = .invalidCode :=
  pmDecode_eq_invalidCode_of_ne_pair fun _ _ hpair => h (pmDecode_eq_pair_iff.1 hpair).1

theorem pmDecode_of_channelOf_eq_none {c : Config} {m : U16} (h : c.channelOf (pmSel c m) = none) :
    pmDecode c m = .invalidCode :=
  pmDecode_eq_invalidCode_of_ne_pair fun channel _ hpair => by
    obtain ⟨-, hchannel, -⟩ := pmDecode_eq_pair_iff.1 hpair
    cases h.symm.trans hchannel

/-- This machine's parameters but for the second channel, which the spec leaves open (D20). -/
def configWithSecond (second : Option (Byte × BitVec 2)) : Config := { config with pmChannel2 := second }

/-- PM.DEC answers a pair on the code of that pair's channel, and on no other message (R194). -/
theorem pmDecode_eq_pair_iff_pmCode {second : Option (Byte × BitVec 2)} {channel : Byte} {on : Bool} {m : U16} :
    pmDecode (configWithSecond second) m = .pair channel on ↔
      ∃ sel, (configWithSecond second).channelOf sel = some channel ∧ pmCode config sel on = m := by
  rw [pmDecode_eq_pair_iff]
  constructor
  · rintro ⟨hpattern, hchannel, hon⟩
    exact ⟨_, hchannel, (eq_pmCode_iff.2 ⟨hpattern, rfl, hon⟩).symm⟩
  · rintro ⟨sel, hchannel, hcode⟩
    obtain ⟨hpattern, rfl, hon⟩ := eq_pmCode_iff.1 hcode.symm
    exact ⟨hpattern, hchannel, hon⟩

/-- With an injective table PM.DEC and PM.ENC are one relation (R194). -/
theorem pmDecode_eq_pair_iff_pmEncode {second : Option (Byte × BitVec 2)}
    (h : tableInjective (configWithSecond second).pmTable = true) {channel : Byte} {on : Bool} {m : U16} :
    pmDecode (configWithSecond second) m = .pair channel on ↔
      pmEncode (configWithSecond second) channel on = some m := by
  rw [pmDecode_eq_pair_iff_pmCode, pmEncode_eq_some_iff]
  simp only [Config.channelOf_eq_some_iff h, Config.selector_eq_some_iff h]
  rfl

/-- Settles O53: the two directions of one equivalence. -/
theorem payloadRoundTrip : Obligations.PayloadRoundTrip := by
  intro second c hwf
  have hinj : tableInjective c.pmTable = true := Config.tableInjective_of_wellFormed hwf
  exact ⟨fun _ _ _ => (pmDecode_eq_pair_iff_pmEncode hinj).2, fun _ _ _ => (pmDecode_eq_pair_iff_pmEncode hinj).1⟩

/-- This machine's table is the one row of R192. -/
theorem channelOf_config_eq_some_iff {sel : BitVec 2} {channel : Byte} :
    config.channelOf sel = some channel ↔ channel = 0x65 ∧ sel = 3 := by
  rw [Config.channelOf_eq_some_iff (by decide)]
  exact List.mem_singleton.trans Prod.mk_inj

/-- So PM.DEC answers 'e' on the code of selector 3, and no other channel. -/
theorem pmDecode_config_eq_pair_iff {channel : Byte} {on : Bool} {m : U16} :
    pmDecode config m = .pair channel on ↔ channel = 0x65 ∧ m = pmCode config 3 on := by
  calc pmDecode config m = .pair channel on
    _ ↔ ∃ sel, config.channelOf sel = some channel ∧ pmCode config sel on = m :=
      pmDecode_eq_pair_iff_pmCode (second := none)
    _ ↔ channel = 0x65 ∧ m = pmCode config 3 on := by
      simp [channelOf_config_eq_some_iff, and_assoc, eq_comm (a := m)]

/-- Settles O52: the two codes are those of selector 3, and an answer that is no pair is InvalidCode. -/
theorem exactlyTwoCodesDecode : Obligations.ExactlyTwoCodesDecode := by
  intro m
  have hon : pmCode config 3 true = 0x8CAA := by decide
  have hoff : pmCode config 3 false = 0x0CAA := by decide
  refine ⟨?_, ?_, fun hneOn hneOff => ?_⟩
  · rw [pmDecode_config_eq_pair_iff, hon, and_iff_right rfl]
  · rw [pmDecode_config_eq_pair_iff, hoff, and_iff_right rfl]
  · refine pmDecode_eq_invalidCode_of_ne_pair fun channel on hpair => ?_
    obtain ⟨-, hcode⟩ := pmDecode_config_eq_pair_iff.1 hpair
    cases on with
    | true => exact hneOn (hcode.trans hon)
    | false => exact hneOff (hcode.trans hoff)

/-- Settles O50, by whether the table has the identifier. -/
theorem payloadEncodeResult : Obligations.PayloadEncodeResult := by
  refine ⟨fun s channel sel on hsel => ?_, fun s channel on hnone => ?_⟩
  · have hcode : pmEncode config channel on = some (pmCode config sel on) := pmEncode_eq_some_iff.2 ⟨sel, hsel, rfl⟩
    calc exec (.pmEnc channel on) s
      _ = .next (s.finish (.code (pmCode config sel on)) []) := by simp only [exec, execPmEnc, hcode]
      _ = _ := by rw [State.finish_no_events, pmCode_config]
  · have hcode : pmEncode config channel on = none := Option.map_eq_none_iff.2 hnone
    simp only [exec, execPmEnc, hcode, callerError]

/-- Settles O51: the operation hands over `pmDecode`, and each clause is one way its checks come out. -/
theorem payloadDecodeResult : Obligations.PayloadDecodeResult := by
  intro s m
  refine ⟨pmDecode config m, ?_, ?_, ?_, ?_, ?_⟩
  · calc exec (.pmDec m) s
      _ = .next (s.finish (.payload (pmDecode config m)) []) := rfl
      _ = _ := by rw [State.finish_no_events]
  · exact fun hlow => pmDecode_of_not_hasFixedPattern fun hpattern => hlow hpattern.1
  · exact fun hfixed => pmDecode_of_not_hasFixedPattern fun hpattern => hfixed hpattern.2
  · exact pmDecode_of_channelOf_eq_none
  · exact fun channel hlow hfixed hchannel => pmDecode_eq_pair_iff.2 ⟨⟨hlow, hfixed⟩, hchannel, rfl⟩

end Sys2Proof.Machine

/-! ### Deliveries and their reports (R203, R60)

The channel's balance of `exec_balances_channel`, for operations that hand the consumer nothing. -/

namespace Sys2Proof.Machine

/-- Only the consumer's CH.POP hands a message over (R182). -/
theorem handed_of_exec_of_not_consumer {i : Instr} {s t : State} (hi : agentOf i ≠ .consumer)
    (h : exec i s = .next t) : t.result.handed = [] := by
  cases exec_cases h with
  | pop => exact absurd rfl hi
  | pure i r hpure hresult => exact Result.handed_of_ne_popped hresult
  | encode | encReset | decode | decBegin | decSym | symbolWord => rfl

/-- Settles O44: DEC's operations hand nothing over, so what they leave in the channel is what was in it and what their
events report. -/
theorem emitReportsEachDelivery : Obligations.EmitReportsEachDelivery := by
  intro i s t hi h
  have hnone : t.result.handed = [] := handed_of_exec_of_not_consumer (by rw [hi]; decide) h
  calc t.ch
    _ = t.result.handed ++ t.ch := by rw [hnone, List.nil_append]
    _ = s.ch ++ emitted t.events := (exec_balances_channel h).symm

end Sys2Proof.Machine

/-! ### Construction is settled at startup (R208, R200, U14)

What a step answers to a report on construction, and to a request, by the stage of startup. -/

namespace Sys2Proof.Machine

theorem step_of_nextInput_event {s t : State} (h : nextInput s = .event t) : step s = .next t := by
  simp only [step, h]

theorem step_of_nextInput_rejected {s : State} {r : Refusal} (h : nextInput s = .rejected r) : step s = .refused r := by
  simp only [step, h]

theorem step_of_nextInput_failed {s : State} {f : Fault} (h : nextInput s = .failed f) : step s = .fault f := by
  simp only [step, h]

/-- A report of failed construction is left to the stage of startup (R208). -/
theorem nextInput_of_constructionFailure {s : State} {rest : List Input}
    (h : s.pending = .constructionFailure :: rest) :
    nextInput s = endConstruction false { s with pending := rest } :=
  nextInput_of_pending_cons h

/-- So is a report of success (R208). -/
theorem nextInput_of_constructionSuccess {s : State} {rest : List Input}
    (h : s.pending = .constructionSuccess :: rest) :
    nextInput s = endConstruction true { s with pending := rest } :=
  nextInput_of_pending_cons h

/-- Settles O59: each input is left to the stage of startup, which answers by `outOfReset`. -/
theorem constructionSettledAtStartup : Obligations.ConstructionSettledAtStartup := by
  intro s rest
  refine ⟨fun hheld hpending => step_of_nextInput_failed ?_, fun hheld hpending => step_of_nextInput_event ?_,
    fun r i hheld hpending hdecode => step_of_nextInput_rejected ?_,
    fun hout hpending => step_of_nextInput_rejected ?_⟩
  · exact (nextInput_of_constructionFailure hpending).trans (endConstruction_false _ hheld)
  · exact (nextInput_of_constructionSuccess hpending).trans (endConstruction_true _ hheld)
  · calc nextInput s
      _ = takeInput (.request r) rest s := nextInput_of_pending_cons hpending
      _ = admitOperation i { s with pending := rest } := takeInput_request_of_decode_ok hdecode rest s
      _ = .rejected .notOutOfReset := admitOperation_of_held i _ hheld
  · rcases hpending with hfailure | hsuccess
    · exact (nextInput_of_constructionFailure hfailure).trans (endConstruction_of_out false _ hout)
    · exact (nextInput_of_constructionSuccess hsuccess).trans (endConstruction_of_out true _ hout)

end Sys2Proof.Machine

/-! ### A block out of reset never faults (R133, R200, R208)

Being out of reset is kept by every step and excludes the one fault, so no run of such a block reaches it. -/

namespace Sys2Proof.Machine

/-- No step puts a block back in reset: even device reset leaves it "idle" and out of it (R230). -/
theorem step_keeps_outOfReset {s t : State} (hstep : step s = .next t) (hout : s.outOfReset = true) :
    t.outOfReset = true := by
  rcases step_cases hstep with ⟨-, rfl⟩ | ⟨free, rest, -, rfl⟩ | ⟨rest, -, rfl⟩ | ⟨rest, -, -, rfl⟩ |
    ⟨r, rest, i, -, -, -, hexec⟩
  · exact hout
  · exact hout
  · exact hout
  · rfl
  · exact (exec_outOfReset hexec).trans hout

theorem step_ne_fault_of_out {s : State} (hout : s.outOfReset = true) (f : Fault) : step s ≠ .fault f := by
  intro hfault
  obtain ⟨hheld, -⟩ := step_fault_cases hfault
  exact Bool.false_ne_true (hheld.symm.trans hout)

theorem run_succ_of_next {s t : State} (h : step s = .next t) (k : Nat) : core.run (k + 1) s = core.run k t := by
  have hcore : core.step s = .next t := h
  simp only [Host.Core.run, hcore]

theorem run_succ_of_refused {s : State} {r : Refusal} (h : step s = .refused r) (k : Nat) :
    core.run (k + 1) s = .refused r := by
  have hcore : core.step s = .refused r := h
  simp only [Host.Core.run, hcore]

/-- By induction on the run's length: its first step is no fault and leaves the block out of reset. -/
theorem run_ne_fault_of_out (k : Nat) {s : State} (hout : s.outOfReset = true) (f : Fault) : core.run k s ≠ .fault f := by
  induction k generalizing s with
  | zero => exact nofun
  | succ k ih =>
    cases hstep : step s with
    | next t =>
      rw [run_succ_of_next hstep]
      exact ih (step_keeps_outOfReset hstep hout)
    | fault g => exact absurd hstep (step_ne_fault_of_out hout g)
    | refused r =>
      rw [run_succ_of_refused hstep]
      exact nofun

/-- Settles O60: the stage of startup is an invariant, and `step_fault_cases` locates the one fault there is. -/
theorem blockOutOfResetNeverFaults : Obligations.BlockOutOfResetNeverFaults := by
  refine ⟨rfl, fun s t => step_keeps_outOfReset, fun s k f hout => run_ne_fault_of_out k hout f, fun s f hfault => ?_⟩
  obtain ⟨hheld, hreport⟩ := step_fault_cases hfault
  cases f with
  | constructionFailure => exact ⟨hheld, rfl, hreport⟩

end Sys2Proof.Machine

/-! ### A frame split over batches (R55, R151, R158, R246)

A run of fewer than sixteen symbols never reaches the frame validator: it can only be abandoned, and each batch begins a
run of its own. -/

namespace Sys2Proof.Machine

/-- The decoder run `r`, from the registers `d` and the channel `q`, has completed no frame: the channel and the latch
stay, and the events are diagnostics of at most 14 bits (R158, R205). -/
structure DecRun.DeliversNothing (r : DecRun) (d : DecState) (q : List U16) : Prop where
  ch        : r.ch = q
  last      : r.dec.last = d.last
  lastValid : r.dec.lastValid = d.lastValid
  events    : ∀ ev ∈ r.events, ∃ n, ev = .diag n ∧ 3 ≤ n ∧ n ≤ 14

/-- DEC.SYM with at most 14 bits accumulated completes no frame, and counts at most one bit more (R153). -/
theorem decSymbol_deliversNothing {d : DecState} (hcnt : d.cnt.val ≤ 14) (q : List U16) (sym : OokSymbol) :
    (decSymbol config d q sym).DeliversNothing d q ∧ (decSymbol config d q sym).dec.cnt.val ≤ d.cnt.val + 1 := by
  rcases decSymbol_cases d.cnt sym with heq | ⟨b, n, hn, -, heq⟩ | ⟨b, hlast, -⟩
  · rw [heq d q rfl]
    refine ⟨⟨rfl, rfl, rfl, fun ev hev => ?_⟩, Nat.zero_le _⟩
    obtain ⟨hlong, rfl⟩ := mem_decAbandon_events.1 hev
    exact ⟨_, rfl, hlong, hcnt⟩
  · rw [heq d q rfl]
    exact ⟨⟨rfl, rfl, rfl, by simp⟩, hn.le⟩
  · omega

/-- A batch too short to bring the run in progress to its sixteenth bit completes no frame (R151, R246). -/
theorem decSymbols_deliversNothing (batch : List OokSymbol) {d : DecState} (hshort : d.cnt.val + batch.length ≤ 15)
    (q : List U16) : (decSymbols config d q batch).DeliversNothing d q := by
  induction batch generalizing d q with
  | nil => exact ⟨rfl, rfl, rfl, by simp⟩
  | cons sym rest ih =>
    rw [List.length_cons] at hshort
    obtain ⟨hfirst, hcnt⟩ := decSymbol_deliversNothing (d := d) (by omega) q sym
    have hrest := ih (d := (decSymbol config d q sym).dec) (by omega) (decSymbol config d q sym).ch
    rw [decSymbols_cons]
    refine ⟨hrest.ch.trans hfirst.ch, hrest.last.trans hfirst.last, hrest.lastValid.trans hfirst.lastValid,
      fun ev hev => ?_⟩
    rcases List.mem_append.1 hev with hev | hev
    · exact hfirst.events ev hev
    · exact hrest.events ev hev

/-- DEC.DECODE starts its run at count 0, so a batch of fewer than sixteen symbols completes no frame (R152, R246). -/
theorem State.decRun_deliversNothing (s : State) {batch : List OokSymbol} (hshort : batch.length < 16) :
    (s.decRun batch).DeliversNothing s.dec s.ch := by
  have hbegin : (decBegin config s.dec).cnt.val + batch.length ≤ 15 := by
    rw [decBegin_cnt, Fin.val_zero]
    omega
  have hrun := decSymbols_deliversNothing batch hbegin s.ch
  rw [decBegin_config] at hrun
  rw [State.decRun, decBegin_config]
  exact ⟨hrun.ch, hrun.last, hrun.lastValid, hrun.events⟩

/-- Settles O39, by induction on the batches: none of them completes a frame. -/
theorem shortBatchesDeliverNothing : Obligations.ShortBatchesDeliverNothing := by
  intro s batches
  induction batches generalizing s with
  | nil => exact fun _ => ⟨s, [], rfl, rfl, rfl, rfl, (List.append_nil s.log).symm, by simp⟩
  | cons batch rest ih =>
    intro hshort
    have hfirst := s.decRun_deliversNothing (hshort batch List.mem_cons_self)
    obtain ⟨t, ev, hexec, hch, hlast, hvalid, hlog, hev⟩ :=
      ih (s.afterDec (s.decRun batch)) fun b hb => hshort b (List.mem_cons_of_mem batch hb)
    refine ⟨t, (s.decRun batch).events ++ ev, ?_, hch.trans hfirst.ch, hlast.trans hfirst.last,
      hvalid.trans hfirst.lastValid, ?_, fun e he => ?_⟩
    · rw [List.map_cons, execAll_cons_of_next (exec_decDecode s batch), hexec]
    · rw [hlog, State.afterDec_log, List.append_assoc]
    · rcases List.mem_append.1 he with he | he
      · exact hfirst.events e he
      · exact hev e he

end Sys2Proof.Machine

/-! ### ENC.ENCODE beyond TXBUF's real space (R242, U4) -/

namespace Sys2Proof.Machine

/-- ENC.ENCODE is refused where what its loop emits has no room, the counterpart of `exec_encEncode_of_room`. -/
theorem exec_encEncode_of_no_room {s : State} {capacity room : Nat} {m : U16} (hstep : s.enc.step ≠ .payload3Done)
    (hmsg : s.enc.step = .reset ∨ m = s.enc.msg) (hfree : s.tx.free = some room)
    (hover : room < (encLoop config capacity { s.enc with msg := m }).symbols.length) :
    exec (.encEncode capacity m) s = .refused .txbufOverrun := by
  have hstart : encStart s.enc m = .ok { s.enc with msg := m } := encStart_eq_ok.2 ⟨hstep, hmsg, rfl⟩
  simp only [exec, execEncEncode, hstart, encDeliver, txAppendAll_of_no_room s.tx _ room hfree hover, callerError]

/-- Settles O19: the loop emits as many symbols as the capacity and the frame allow, and the real space has not that
many. -/
theorem encodeOverrunRefused : Obligations.EncodeOverrunRefused := by
  intro s capacity room m hinv hmsg hfree hover
  refine exec_encEncode_of_no_room hinv.notDone hmsg hfree ?_
  rwa [encLoop_symbols_length config capacity (hinv.withMsg m).bitOnlyInPayload]

end Sys2Proof.Machine

/-! ### What clears the latch and what empties the channel (R31, R33, R231)

No operation clears the latch, and only CH.POP takes from the channel: the balance of `exec_balances_channel` leaves
nothing else. -/

namespace Sys2Proof.Machine

/-- A full latch stays full over DEC.SYM: only a completed frame writes it, and fills it (R156, R158). -/
theorem decSymbol_keeps_latch {d : DecState} (h : d.lastValid = true) (q : List U16) (sym : OokSymbol) :
    (decSymbol config d q sym).dec.lastValid = true := by
  rcases decSymbol_cases d.cnt sym with heq | ⟨b, n, -, -, heq⟩ | ⟨b, -, heq⟩ <;> rw [heq d q rfl]
  · exact h
  · exact h
  · rw [decComplete_dec]

/-- So it does over a batch (R151). -/
theorem decSymbols_keeps_latch (batch : List OokSymbol) {d : DecState} (h : d.lastValid = true) (q : List U16) :
    (decSymbols config d q batch).dec.lastValid = true := by
  induction batch generalizing d q with
  | nil => exact h
  | cons sym rest ih =>
    rw [decSymbols_cons]
    exact ih (decSymbol_keeps_latch h q sym) _

/-- DEC.BEGIN does not clear the latch on this machine (R152). -/
theorem decBegin_keeps_latch {d : DecState} (h : d.lastValid = true) : (decBegin config d).lastValid = true := by
  rwa [decBegin_config]

/-- No operation clears the latch (R31, R231). -/
theorem exec_keeps_latch {i : Instr} {s t : State} (h : exec i s = .next t) (hvalid : s.dec.lastValid = true) :
    t.dec.lastValid = true := by
  cases exec_cases h with
  | decode batch => exact decSymbols_keeps_latch batch (decBegin_keeps_latch hvalid) s.ch
  | decBegin => exact decBegin_keeps_latch hvalid
  | decSym sym => exact decSymbol_keeps_latch hvalid s.ch sym
  | encode | encReset | pop | pure | symbolWord => exact hvalid

/-- The consumer has one operation (R215). -/
theorem eq_chPop_of_consumer {i : Instr} (h : agentOf i = .consumer) : i = .chPop := by
  cases i with
  | chPop => rfl
  | encEncode | encReset | decDecode | decBegin | decSym | cmpWin | cmpClassify | pmEnc | pmDec | zero | one | header
    | delay => cases h

/-- Only CH.POP empties the channel: what any other operation hands to the consumer is nothing (R33, R182). -/
theorem eq_chPop_of_exec_empties {i : Instr} {s t : State} (h : exec i s = .next t) (hfilled : s.ch ≠ [])
    (hempty : t.ch = []) : i = .chPop := by
  by_contra hpop
  have hnone : t.result.handed = [] := handed_of_exec_of_not_consumer (hpop ∘ eq_chPop_of_consumer) h
  have hbalance : s.ch ++ emitted t.events = [] := by rw [exec_balances_channel h, hnone, hempty, List.append_nil]
  exact hfilled (List.append_eq_nil_iff.1 hbalance).1

/-- A step that is no device reset keeps a full latch. -/
theorem step_keeps_latch {s t : State} (hstep : step s = .next t) (hvalid : s.dec.lastValid = true) :
    t.dec.lastValid = true ∨ ∃ rest, s.pending = .deviceReset :: rest := by
  rcases step_cases hstep with ⟨-, rfl⟩ | ⟨free, rest, -, rfl⟩ | ⟨rest, hreset, -⟩ | ⟨rest, -, -, rfl⟩ |
    ⟨r, rest, i, -, -, -, hexec⟩
  · exact .inl hvalid
  · exact .inl hvalid
  · exact .inr ⟨rest, hreset⟩
  · exact .inl hvalid
  · exact .inl (exec_keeps_latch hexec hvalid)

/-- A step that empties a filled channel is a device reset or runs CH.POP. -/
theorem step_empties_channel {s t : State} (hstep : step s = .next t) (hfilled : s.ch ≠ []) (hempty : t.ch = []) :
    (∃ rest, s.pending = .deviceReset :: rest) ∨
      (∃ r rest, s.pending = .request r :: rest ∧ decode r = .ok .chPop) := by
  rcases step_cases hstep with ⟨-, rfl⟩ | ⟨free, rest, -, rfl⟩ | ⟨rest, hreset, -⟩ | ⟨rest, -, -, rfl⟩ |
    ⟨r, rest, i, hrequest, -, hdecode, hexec⟩
  · exact absurd hempty hfilled
  · exact absurd hempty hfilled
  · exact .inl ⟨rest, hreset⟩
  · exact absurd hempty hfilled
  · obtain rfl := eq_chPop_of_exec_empties hexec hfilled hempty
    exact .inr ⟨r, rest, hrequest, hdecode⟩

/-- Settles O7: one lemma for the latch and one for the channel, over all the inputs a step can take. -/
theorem onlyDeviceResetClearsLatch : Obligations.OnlyDeviceResetClearsLatch := by
  refine fun s t hstep => ⟨fun hvalid hcleared => ?_, step_empties_channel hstep⟩
  exact (step_keeps_latch hstep hvalid).resolve_left (by simp [hcleared])

end Sys2Proof.Machine

/-! ### Device reset, and the inputs that run no operation (R39, R82, R230, U4) -/

namespace Sys2Proof.Machine

/-- DEC after device reset on this machine, which gives `dec.last` no reset value (R39, U7). -/
theorem decAfterReset_config (n : Nat) :
    decAfterReset config n = { cnt := 0, acc := 0, last := Config.unspecified n, lastValid := false } := by
  simp [decAfterReset]

/-- A step that takes a device reset (R230). -/
theorem step_of_deviceReset {s : State} {rest : List Input} (h : s.pending = .deviceReset :: rest) :
    step s = .next (deviceReset config { s with pending := rest }) :=
  step_of_nextInput_event (nextInput_of_pending_cons h)

/-- Settles O2: the reset writes ENC, DEC, the channel and the output ports, with two free values drawn. -/
theorem deviceResetReachesEverything : Obligations.DeviceResetReachesEverything := by
  intro s rest hpending
  refine ⟨Config.unspecified s.draws, Config.unspecified (s.draws + 1), ?_⟩
  rw [step_of_deviceReset hpending, deviceReset, decAfterReset_config, encAfterReset]

/-- An idle block waits: with no input a step leaves the state (R230). -/
theorem step_of_pending_nil {s : State} (h : s.pending = []) : step s = .next s := by
  simp only [step, nextInput, h]

/-- A step that takes a report of TXBUF's real space (U4). -/
theorem step_of_txSpace {s : State} {free : Option Nat} {rest : List Input} (h : s.pending = .txSpace free :: rest) :
    step s = .next { s with tx := { s.tx with free := free }, pending := rest } :=
  step_of_nextInput_event (nextInput_of_pending_cons h)

/-- Settles O4, by the step's equation for each of the three. -/
theorem stepTakesOtherInputs : Obligations.StepTakesOtherInputs :=
  ⟨fun _ => step_of_pending_nil, fun _ _ _ => step_of_txSpace, fun _ _ _ _ => step_of_decode_error⟩

end Sys2Proof.Machine
